-- ==== Sys2Proof/Word.lean ====
section
/-! DEFINITION. The word types of the riscv-gpt engine: bytes, 32-bit words and register numbers
(spec/00_scope.md R5, R6; spec/10_state.md R11; spec/20_memory.md R25).
`+` on `Word` is the spec's `+_32` and `-` its `-_32`: both wrap modulo 2^32 (R6). -/

namespace Sys2Proof

/-- The addressable unit of the memory image, 8 bits (R25). -/
abbrev Byte := BitVec 8

/-- A register value, the pc or an instruction word: `XLEN` = `ILEN` = 32 bits (R5, R6). -/
abbrev Word := BitVec 32

/-- A register number, 0 to 31: what a 5-bit register field can name (R11, R42). -/
abbrev RegIx := Fin 32

end Sys2Proof
end

