-- ==== Sys2Proof/Syntax.lean ====
section
/-! DEFINITION. The instructions, one constructor per row of spec/opcode_table.json
(spec/00_scope.md R2; spec/30_encoding.md R50, R54). Immediates are held as the 32-bit values that
the decoder of R54 delivers: sign- or zero-extended from their fields (notes/assumptions/26.md). -/

namespace Sys2Proof

/-- The seven instructions with the operands `Decode` (R54) delivers. -/
inductive Instr where
  /-- `ADD rd, rs1, rs2` (R70). -/
  | add (rd rs1 rs2 : RegIx)
  /-- `ADDI rd, rs1, imm`; `imm` is sign-extended from 12 bits (R71, R45). -/
  | addi (rd rs1 : RegIx) (imm : Word)
  /-- `MV rd, rs1` (R72). -/
  | mv (rd rs1 : RegIx)
  /-- `BEQZ rs1, off`; `off` is a byte offset sign-extended from 6 bits (R75, R47). -/
  | beqz (rs1 : RegIx) (off : Word)
  /-- `JAL rd, hoff`; `hoff` is a halfword count sign-extended from 11 bits (R76, R48). -/
  | jal (rd : RegIx) (hoff : Word)
  /-- `SD rs2, imm(rs1)`; `imm` is zero-extended from 12 bits (R80, R49). -/
  | sd (rs1 rs2 : RegIx) (imm : Word)
  /-- `ECALL` (R85). -/
  | ecall
  deriving DecidableEq, Repr

end Sys2Proof
end

