-- ==== Sys2Proof/WellFormed.lean ====
section
/-! DEFINITION. Which `Instr` terms an instruction word can stand for: the operand ranges of
spec/30_encoding.md R56 (ADDI -2048 .. 2047, BEQZ -32 .. 31 bytes, JAL -1024 .. 1023 halfwords,
SD 0 .. 4095). Register operands need no check: `RegIx` is a 5-bit field's range, and `rs2 = 31` of SD
is a well-formed instruction that faults when it executes (R80). -/

namespace Sys2Proof

/-- `v`, read as signed, is a value of an `n`-bit two's complement field (`n` at least 1). -/
def fitsSigned (n : Nat) (v : Word) : Bool :=
  decide (-(2 ^ (n - 1) : Int) ≤ v.toInt) && decide (v.toInt < (2 ^ (n - 1) : Int))

/-- `v`, read as unsigned, is a value of an `n`-bit field. -/
def fitsUnsigned (n : Nat) (v : Word) : Bool :=
  decide (v.toNat < 2 ^ n)

/-- The operand ranges of R56. -/
def Instr.wf : Instr → Bool
  | .add _ _ _ => true
  | .addi _ _ imm => fitsSigned 12 imm
  | .mv _ _ => true
  | .beqz _ off => fitsSigned 6 off
  | .jal _ hoff => fitsSigned 11 hoff
  | .sd _ _ imm => fitsUnsigned 12 imm
  | .ecall => true

end Sys2Proof
end

