-- ==== Sys2Proof/Decode.lean ====
section
/-! DEFINITION. The decoder (spec/30_encoding.md R40 to R55), total on any word and on any bytes and
rejecting by name, and after it the encoder (R57) and the opcode table (R50). Everything is read from
the word alone (R53, R63). -/

namespace Sys2Proof

/-! ## Fields of the word (R42) -/

/-- `op = w[6:0]`. -/
def opField (w : Word) : BitVec 7 := w.extractLsb' 0 7

/-- `funct3 = w[14:12]`, a decode key under opcode 0x13 only (R41). -/
def funct3Field (w : Word) : BitVec 3 := w.extractLsb' 12 3

/-- `rd = w[11:7]`. -/
def rdField (w : Word) : RegIx := (w.extractLsb' 7 5).toFin

/-- `rs1 = w[19:15]`. -/
def rs1Field (w : Word) : RegIx := (w.extractLsb' 15 5).toFin

/-- `rs2 = w[24:20]`. -/
def rs2Field (w : Word) : RegIx := (w.extractLsb' 20 5).toFin

/-! ## Immediates (R45, R47, R48, R49) -/

/-- ADDI immediate: `sext_12(w[31:20])` (R45). -/
def addiImm (w : Word) : Word := (w.extractLsb' 20 12).signExtend 32

/-- `BeqzOffset(w) = sext_6({w[31], w[11:7]})`, in bytes (R47).
DESIGN CHOICE of the spec (its decision D4; notes/assumptions/7.md), unsafe. -/
def beqzOffset (w : Word) : Word := (w.extractLsb' 31 1 ++ w.extractLsb' 7 5).signExtend 32

/-- `JalOffset(w) = sext_11({w[31], w[30:21]})`, in halfwords (R48).
DESIGN CHOICE of the spec (its decision D5; notes/assumptions/8.md), unsafe. -/
def jalOffset (w : Word) : Word := (w.extractLsb' 31 1 ++ w.extractLsb' 21 10).signExtend 32

/-- `SdImm(w) = zext_12({w[31:25], w[11:7]})`, in bytes (R49). Zero extension is the source's; which
part is high is a DESIGN CHOICE of the spec (its decision D6; notes/assumptions/9.md), unsafe. -/
def sdImm (w : Word) : Word := (w.extractLsb' 25 7 ++ w.extractLsb' 7 5).setWidth 32

/-! ## The decoder -/

/-- Why bytes are no instruction. The spec's `Invalid` carries no reason (R54): the names are the
model's and nothing of the machine depends on them (notes/assumptions/25.md). -/
inductive Invalid where
  /-- `w[6:0]` is none of 0x33, 0x13, 0x63, 0x6F, 0x23, 0x73 (R52). -/
  | unknownOpcode (op : BitVec 7)
  /-- `w[6:0] = 0x13` with `w[14:12]` in 2 .. 7 (R51). -/
  | unknownFunct3 (funct3 : BitVec 3)
  /-- Fewer than the 4 bytes of a word (R40): only `decodeBytes` can say so, a fetch never. -/
  | truncated
  deriving DecidableEq, Repr

/-- `Decode(w)` (R54). -/
def decode (w : Word) : Except Invalid Instr :=
  if opField w = 0x33#7 then .ok (.add (rdField w) (rs1Field w) (rs2Field w))
  else if opField w = 0x13#7 then
    if funct3Field w = 0#3 then .ok (.addi (rdField w) (rs1Field w) (addiImm w))
    else if funct3Field w = 1#3 then .ok (.mv (rdField w) (rs1Field w))
    else .error (.unknownFunct3 (funct3Field w))
  else if opField w = 0x63#7 then .ok (.beqz (rs1Field w) (beqzOffset w))
  else if opField w = 0x6F#7 then .ok (.jal (rdField w) (jalOffset w))
  else if opField w = 0x23#7 then .ok (.sd (rs1Field w) (rs2Field w) (sdImm w))
  else if opField w = 0x73#7 then .ok .ecall
  else .error (.unknownOpcode (opField w))

/-- The word whose 4 bytes stand in memory in the order given, lowest address first (R30, R40). -/
def wordOfBytes (b0 b1 b2 b3 : Byte) : Word :=
  b0.setWidth 32 ||| b1.setWidth 32 <<< 8 ||| b2.setWidth 32 <<< 16 ||| b3.setWidth 32 <<< 24

/-- The 4 bytes of a word as memory holds them, lowest address first (R30, R40). -/
def bytesOfWord (w : Word) : List Byte :=
  [w.extractLsb' 0 8, w.extractLsb' 8 8, w.extractLsb' 16 8, w.extractLsb' 24 8]

/-- Decode the first instruction of a byte sequence: the instruction and the bytes after it. -/
def decodeBytes : List Byte → Except Invalid (Instr × List Byte)
  | b0 :: b1 :: b2 :: b3 :: rest => (decode (wordOfBytes b0 b1 b2 b3)).map fun i => (i, rest)
  | _ => .error .truncated

/-- The 32-bit word of a table row's bits: `nbits` bits of `w`, the bits above them zero. -/
def tableWord (nbits w : Nat) : Word := BitVec.ofNat 32 (w % 2 ^ nbits)

/-- What the decoder reads from the instruction whose bits the opcode table numbers as `w`. -/
def decodeTableWord (nbits w : Nat) : Option Instr :=
  match decodeBytes (bytesOfWord (tableWord nbits w)) with
  | .ok (i, _) => some i
  | .error _ => none

/-! ## The encoder -/

/-- A register number as a 32-bit value, to be shifted to its field. -/
def regWord (r : RegIx) : Word := BitVec.ofNat 32 r.val

/-- The canonical word of a well-formed instruction, every ignored bit zero (R57, layouts R43). -/
def encode : Instr → Word
  | .add rd rs1 rs2 => regWord rs2 <<< 20 ||| regWord rs1 <<< 15 ||| regWord rd <<< 7 ||| 0x33
  | .addi rd rs1 imm => (imm &&& 0xFFF) <<< 20 ||| regWord rs1 <<< 15 ||| regWord rd <<< 7 ||| 0x13
  | .mv rd rs1 => regWord rs1 <<< 15 ||| 1 <<< 12 ||| regWord rd <<< 7 ||| 0x13
  | .beqz rs1 off =>
    ((off >>> 5) &&& 1) <<< 31 ||| regWord rs1 <<< 15 ||| (off &&& 0x1F) <<< 7 ||| 0x63
  | .jal rd hoff =>
    ((hoff >>> 10) &&& 1) <<< 31 ||| (hoff &&& 0x3FF) <<< 21 ||| regWord rd <<< 7 ||| 0x6F
  | .sd rs1 rs2 imm =>
    (imm >>> 5) <<< 25 ||| regWord rs2 <<< 20 ||| regWord rs1 <<< 15 ||| (imm &&& 0x1F) <<< 7 ||| 0x23
  | .ecall => 0x00000073

/-- The bytes of `encode`, lowest address first. -/
def encodeBytes (i : Instr) : List Byte := bytesOfWord (encode i)

/-! ## The opcode table (R50) -/

/-- One row: a word `w` is the row's instruction exactly when `w &&& mask = pattern`; `used` marks the
bits that R43 does not call ignored (key and operand fields). -/
structure OpcodeRow where
  mnemonic : String
  mask : Word
  pattern : Word
  used : Word
  deriving DecidableEq, Repr

/-- The row of spec/opcode_table.json an instruction belongs to (masks and patterns: R50; used bits:
R43). -/
def Instr.row : Instr → OpcodeRow
  | .add _ _ _ => ⟨"ADD", 0x0000007F, 0x00000033, 0x01FF8FFF⟩
  | .addi _ _ _ => ⟨"ADDI", 0x0000707F, 0x00000013, 0xFFFFFFFF⟩
  | .mv _ _ => ⟨"MV", 0x0000707F, 0x00001013, 0x000FFFFF⟩
  | .beqz _ _ => ⟨"BEQZ", 0x0000007F, 0x00000063, 0x800F8FFF⟩
  | .jal _ _ => ⟨"JAL", 0x0000007F, 0x0000006F, 0xFFE00FFF⟩
  | .sd _ _ _ => ⟨"SD", 0x0000007F, 0x00000023, 0xFFFF8FFF⟩
  | .ecall => ⟨"ECALL", 0x0000007F, 0x00000073, 0x0000007F⟩

end Sys2Proof
end

