-- ==== Sys2Proof/Config.lean ====
section
/-! DEFINITION. The implementation parameters the spec fixes (spec/00_scope.md R5) and the one value
an unlisted memory address reads as (spec/20_memory.md R25, R33).
This hardware needs no free value: every result of every instruction is stated by a rule.
The five points the source leaves open and the spec decides (`BeqzOffset`, `JalOffset`, `SdImm`,
`ElfParse`, `reg_reset`) are named definitions of their own: `beqzOffset`, `jalOffset` and `sdImm` in
Decode.lean, `elfParse` in Machine/Elf.lean, `State.reset` in Machine/State.lean. -/

namespace Sys2Proof.Config

/-- `MEM_SIZE`: the capacity of the memory image in bytes, 1 MiB (R5, R25). -/
def memSize : Nat := 0x100000

/-- `RESULT_REG`: the register whose value is reported at halt (R5, R85). -/
def resultReg : RegIx := 10

/-- What a byte of memory reads as that neither the loader nor SD has written: the image is
zero-initialised (R25, R33). -/
def unlistedByte : Byte := 0

end Sys2Proof.Config
end

