-- ==== Sys2Proof/Machine/State.lean ====
section
/-! DEFINITION. The whole architectural state: four items and nothing else (spec/10_state.md R10):
memory image, 32 general registers, pc, run state. The hardware has no flags, no control or status
registers, no accumulators, no exception registers, no reservation and no hidden state (R19, R24), so
no field stands for one; the model adds no field of its own. -/

namespace Sys2Proof.Machine

/-- The memory image in its sparse form: the cells whose byte differs from `Config.unlistedByte`, at
strictly rising addresses (`Memory.wf` in Machine/Memory.lean says so). -/
abbrev Memory := List Host.Cell

/-- The load errors (spec/50_loader.md R108). They carry no detail (R102) and no number (R119). -/
inductive LoadError where
  /-- The input is no ELF object the parser accepts, or the section's bytes lie beyond it. -/
  | malformedElf
  /-- No loadable segment with flags exactly readable + executable. -/
  | noExecutableSegment
  /-- No program-bits section with flags exactly allocated + executable. -/
  | noTextSection
  /-- The section does not fit the memory image. -/
  | imageOverflow
  deriving DecidableEq, Repr

/-- The fatal errors of a step, the spec's `Fault(kind)` (spec/60_exceptions.md R115). -/
inductive FaultKind where
  /-- The fetched word is none of the seven instructions (R116). -/
  | unknownInstruction
  /-- The fetch or a write of SD reaches beyond `0xFFFFF` (R117). -/
  | outOfBoundsAccess
  /-- SD with `rs2 = 31` asks for register 32 (R118). -/
  | registerIndexOutOfRange
  deriving DecidableEq, Repr

/-- The run state `run` (spec/10_state.md R20). -/
inductive RunState where
  /-- Reset state: nothing loaded. -/
  | unloaded
  /-- The loader refused the input; terminal. -/
  | loadFailed (kind : LoadError)
  /-- The engine may take a step. -/
  | running
  /-- ECALL executed when register 10 held `value`; terminal. -/
  | halted (value : Word)
  /-- A step ended in a fatal error; terminal. -/
  | fault (kind : FaultKind)
  deriving DecidableEq, Repr

/-- The machine's state (R10). -/
structure State where
  /-- The memory image, 1,048,576 bytes (R25), in sparse form. -/
  mem : Memory
  /-- The register file: 32 values of 32 bits, none hardwired (R11, R12). -/
  x : Vector Word 32
  /-- The program counter (R15). -/
  pc : Word
  /-- The run state (R20). -/
  run : RunState
  deriving DecidableEq, Repr

/-- Why the model stops with the host's `fault` outcome. A fatal error of the SPEC is no such stop: it
is a next state whose run state is `RunState.fault` (R122). -/
inductive Fault where
  /-- Raised by `step` when `run` is not `Running`: "A step is defined only when `run = Running`" (R20,
  R60, R125). It names the run state the engine rests in. Safe: the model offers no next state where the
  spec defines no step. DESIGN CHOICE, notes/assumptions/2.md. -/
  | notRunning (run : RunState)
  deriving DecidableEq, Repr

/-- Why the model answers nothing. -/
inductive Refusal where
  /-- An instruction with no meaning in the model yet, by its table mnemonic. No arm uses it: all seven
  instructions are modelled. Safe. -/
  | notModelled (mnemonic : String)
  /-- Raised by `load` when `run` is not `Unloaded`: a second load, or a load into a running or finished
  machine, "is not defined" (spec/70_reset_and_hazards.md R136; U16: refuse). No instruction raises it.
  Safe. DESIGN CHOICE, notes/assumptions/20.md. -/
  | loadNotDefined (run : RunState)
  deriving DecidableEq, Repr

/-- Reset: the fresh machine state (R23, R135). Memory all zero is the source's; `x[0] = 0` is forced by
its scenario; `x[1]` to `x[31]` zero, pc zero and `Unloaded` are the spec's decisions D2, D3, D19
(notes/assumptions/4.md, 5.md, 1.md). -/
def State.reset : State where
  mem := []
  x := Vector.replicate 32 0
  pc := 0
  run := .unloaded

end Sys2Proof.Machine
end

