-- ==== Sys2Proof/Machine/Memory.lean ====
section
/-! DEFINITION. The memory image: reading and writing one byte, the canonical form of the sparse list,
and the two primitives `MemRead` and `MemWrite` (spec/20_memory.md R25 to R33). Plain storage only: no
device, no protection, no alignment rule (R26, R31, R33, R34). -/

namespace Sys2Proof.Machine

/-! ## One byte -/

/-- The byte at `addr`: the last value written, or `Config.unlistedByte` if none was (R33). -/
def Memory.byte : Memory → Nat → Byte
  | [], _ => Config.unlistedByte
  | (a, b) :: m, addr => if addr = a then b else Memory.byte m addr

/-- List the cell `(addr, b)` in front of `m`, unless `b` is what an unlisted address reads as. -/
def Memory.cons (addr : Nat) (b : Byte) (m : Memory) : Memory :=
  if b = Config.unlistedByte then m else (addr, b) :: m

/-- `mem[addr] <- b`, keeping the canonical form. -/
def Memory.poke : Memory → Nat → Byte → Memory
  | [], addr, b => Memory.cons addr b []
  | (a, c) :: m, addr, b =>
    if addr < a then Memory.cons addr b ((a, c) :: m)
    else if addr = a then Memory.cons addr b m
    else (a, c) :: Memory.poke m addr b

/-! ## The canonical form -/

/-- Every cell stands at an address of at least `lo`, addresses rise strictly, each is an address of the
image, and no cell holds the byte an unlisted address reads as. -/
def Memory.wfFrom : Nat → Memory → Bool
  | _, [] => true
  | lo, (a, b) :: m =>
    decide (lo ≤ a) && decide (a < Config.memSize) && decide (b ≠ Config.unlistedByte)
      && Memory.wfFrom (a + 1) m

/-- The canonical form: equal images are equal lists. -/
def Memory.wf (m : Memory) : Bool := Memory.wfFrom 0 m

/-! ## `MemRead` and `MemWrite` -/

/-- The `8n`-bit little-endian value of the `n` bytes from `addr` up: byte `addr + k` is bits
`8k+7:8k` (R28, R30). -/
def Memory.assemble (m : Memory) (addr : Nat) : (n : Nat) → BitVec (8 * n)
  | 0 => 0#0
  | n + 1 => (m.byte (addr + n) ++ Memory.assemble m addr n).cast (by omega)

/-- Write the low `n` bytes of `v`, byte `k` (bits `8k+7:8k`) at `addr + k`, lowest first (R29, R30). -/
def Memory.storeBytes (m : Memory) (addr : Nat) {wd : Nat} (v : BitVec wd) : Nat → Memory
  | 0 => m
  | n + 1 => (Memory.storeBytes m addr v n).poke (addr + n) (v.extractLsb' (8 * n) 8)

/-- An access of `n` bytes at `addr` is in range: `addr + n <= MEM_SIZE`, computed unbounded (R27). -/
def inRange (addr : Word) (n : Nat) : Bool := decide (addr.toNat + n ≤ Config.memSize)

/-- `MemRead(addr, n)` (R28). -/
def memRead (m : Memory) (addr : Word) (n : Nat) : Except FaultKind (BitVec (8 * n)) :=
  if inRange addr n then .ok (m.assemble addr.toNat n) else .error .outOfBoundsAccess

/-- `MemWrite(addr, n, v)` (R29): out of range, no byte is written. -/
def memWrite (m : Memory) (addr : Word) (n : Nat) (v : BitVec (8 * n)) : Except FaultKind Memory :=
  if inRange addr n then .ok (m.storeBytes addr.toNat v n) else .error .outOfBoundsAccess

end Sys2Proof.Machine
end

