-- ==== Sys2Proof/Machine/Ops.lean ====
section
/-! DEFINITION. The named operations over the state that the instructions share: register access, the
pc, the instruction fetch, a 4-byte store, taking a fatal error and halting (spec/00_scope.md R7). -/

namespace Sys2Proof.Machine

/-- `x[i]` for a register field (R7, R11): register 0 is read like any other (R12). -/
def State.reg (s : State) (i : RegIx) : Word := s.x[i]

/-- `x[i] <- v` (R7): every register is written, register 0 too (R12). -/
def State.setReg (s : State) (i : RegIx) (v : Word) : State := { s with x := s.x.set i v }

/-- `x[i]` for a computed index (R7): SD's `rs2 + 1` is the only one, and index 32 does not exist
(R14, R118). That it faults and does not wrap is the spec's decision D10 (notes/assumptions/12.md). -/
def State.regAt (s : State) (i : Nat) : Except FaultKind Word :=
  if h : i < 32 then .ok s.x[i] else .error .registerIndexOutOfRange

/-- `pc <- v` (R7). -/
def State.setPc (s : State) (v : Word) : State := { s with pc := v }

/-- The fetch: `MemRead(pc, 4)` (R60, R61). No alignment check (R17, R31). -/
def State.fetch (s : State) : Except FaultKind Word := memRead s.mem s.pc 4

/-- The unconditional advance of the pc, before decoding (R60, R62). -/
def State.advance (s : State) : State := s.setPc (s.pc + 4)

/-- `MemWrite(addr, 4, v)` on the state's memory (R29). -/
def State.store4 (s : State) (addr v : Word) : Except FaultKind State :=
  (memWrite s.mem addr 4 v).map fun m => { s with mem := m }

/-- Taking a fatal error, `raise Fault(kind)`: `run <- Fault(kind)` and nothing else. There is no saved
pc, no cause register, no vector and no handler (R122); writes made earlier in the step stay (R7, R82).
There is no return from a fault or a halt (R124), so no operation stands beside this one. -/
def State.raise (s : State) (kind : FaultKind) : State := { s with run := .fault kind }

/-- `halt(v)`: `run <- Halted(v)` and nothing else (R7, R122). Only ECALL does it (R85). -/
def State.halt (s : State) (value : Word) : State := { s with run := .halted value }

end Sys2Proof.Machine
end

