-- ==== Sys2Proof/Machine/Flags.lean ====
section
/-! DEFINITION. The hardware has no status flags and no condition codes: no instruction sets or reads
one (spec/10_state.md R19). The one condition it tests is a register value being zero (BEQZ). -/

namespace Sys2Proof.Machine

/-- BEQZ's condition: all 32 bits of the register are zero (spec/42_control_transfer.md R75). -/
def State.regIsZero (s : State) (i : RegIx) : Bool := decide (s.reg i = 0)

end Sys2Proof.Machine
end

