-- ==== Sys2Proof/Machine/Control.lean ====
section
/-! DEFINITION. BEQZ, JAL (spec/42_control_transfer.md R75 to R77). On entry the pc already holds
`A + 4`. Targets are checked for neither range nor alignment; the sums wrap (R18, the spec's decision
D8, notes/assumptions/10.md). -/

namespace Sys2Proof.Machine

/-- BEQZ (R75): taken, the pc is `A + 4 + off`; else it stays `A + 4`. -/
def execBeqz (rs1 : RegIx) (off : Word) (s : State) : Host.Outcome State Fault Refusal :=
  .next (if s.regIsZero rs1 then s.setPc (s.pc + off) else s)

/-- JAL (R76): with `p` the advanced pc, `x[rd] <- p + 4` (`A + 8`) and `pc <- p + 2 * hoff - 4`
(`A + 2 * hoff`). The link is written for every `rd`, register 0 too. -/
def execJal (rd : RegIx) (hoff : Word) (s : State) : Host.Outcome State Fault Refusal :=
  .next ((s.setReg rd (s.pc + 4)).setPc (s.pc + 2 * hoff - 4))

end Sys2Proof.Machine
end

