-- ==== Sys2Proof/Machine/Operands.lean ====
section
/-! DEFINITION. The operand forms: a register (`State.reg`), an immediate (the constructor's own
value), and SD's base register plus displacement and register pair (spec/43_store.md R80, R81). -/

namespace Sys2Proof.Machine

/-- SD's effective address: base register plus unsigned displacement, modulo 2^32 (R81). That the
source's "(signed addition)" is this sum is the spec's decision D21 (notes/assumptions/15.md). -/
def State.sdAddress (s : State) (rs1 : RegIx) (imm : Word) : Word := s.reg rs1 + imm

/-- The word SD stores at the LOWER address: `x[rs2 + 1]`; index 32 when `rs2 = 31` (R80). -/
def State.sdLow (s : State) (rs2 : RegIx) : Except FaultKind Word := s.regAt (rs2.val + 1)

/-- The word SD stores at the HIGHER address: `x[rs2]` (R80). -/
def State.sdHigh (s : State) (rs2 : RegIx) : Word := s.reg rs2

end Sys2Proof.Machine
end

