-- ==== Sys2Proof/Machine/Integer.lean ====
section
/-! DEFINITION. ADD, ADDI, MV (spec/41_integer.md R70 to R74). On entry the pc already holds `A + 4`;
these leave it there, touch no memory and cannot fault (R74). Sums wrap (R73). -/

namespace Sys2Proof.Machine

/-- ADD (R70): both sources are read before the write. -/
def execAdd (rd rs1 rs2 : RegIx) (s : State) : Host.Outcome State Fault Refusal :=
  .next (s.setReg rd (s.reg rs1 + s.reg rs2))

/-- ADDI (R71); `imm` is already sign-extended. -/
def execAddi (rd rs1 : RegIx) (imm : Word) (s : State) : Host.Outcome State Fault Refusal :=
  .next (s.setReg rd (s.reg rs1 + imm))

/-- MV (R72): all 32 bits, unchanged. -/
def execMv (rd rs1 : RegIx) (s : State) : Host.Outcome State Fault Refusal :=
  .next (s.setReg rd (s.reg rs1))

end Sys2Proof.Machine
end

