-- ==== Sys2Proof/Machine/Store.lean ====
section
/-! DEFINITION. SD (spec/43_store.md R80 to R84), in the order of its rule: the register reads (index 32
faults), the address, the write at `addr`, the write at `addr + 4`. The first failure ends the step
(R121); a first word already written stays written (R82). -/

namespace Sys2Proof.Machine

/-- SD (R80). The order of the checks is the spec's decision D11, the fault for `rs2 = 31` D10, the
first word staying D12, no alignment check D9 (notes/assumptions/13.md, 12.md, 14.md, 11.md). -/
def execSd (rs1 rs2 : RegIx) (imm : Word) (s : State) : Host.Outcome State Fault Refusal :=
  match s.sdLow rs2 with
  | .error kind => .next (s.raise kind)
  | .ok lo =>
    match s.store4 (s.sdAddress rs1 imm) lo with
    | .error kind => .next (s.raise kind)
    | .ok s1 =>
      match s1.store4 (s.sdAddress rs1 imm + 4) (s.sdHigh rs2) with
      | .error kind => .next (s1.raise kind)
      | .ok s2 => .next s2

end Sys2Proof.Machine
end

