-- ==== Sys2Proof/Machine/System.lean ====
section
/-! DEFINITION. ECALL (spec/44_system.md R85 to R87) and what the engine does with a word that is no
instruction (spec/60_exceptions.md R116). -/

namespace Sys2Proof.Machine

/-- ECALL (R85): `halt(x[10])`. No trap, no handler, no return. -/
def execEcall (s : State) : Host.Outcome State Fault Refusal :=
  .next (s.halt (s.reg Config.resultReg))

/-- Executing `Invalid`: `raise Fault(UnknownInstruction)` (R54, R116). -/
def execInvalid (s : State) : Host.Outcome State Fault Refusal :=
  .next (s.raise .unknownInstruction)

end Sys2Proof.Machine
end

