-- ==== Sys2Proof/Machine/Dispatch.lean ====
section
/-! DEFINITION. The dispatch: one arm per instruction (spec/40_step_cycle.md R60 "execute d", R63). -/

namespace Sys2Proof.Machine

def exec (i : Instr) (s : State) : Host.Outcome State Fault Refusal :=
  match i with
  | .add rd rs1 rs2 => Sys2Proof.Machine.execAdd rd rs1 rs2 s
  | .addi rd rs1 imm => Sys2Proof.Machine.execAddi rd rs1 imm s
  | .mv rd rs1 => Sys2Proof.Machine.execMv rd rs1 s
  | .beqz rs1 off => Sys2Proof.Machine.execBeqz rs1 off s
  | .jal rd hoff => Sys2Proof.Machine.execJal rd hoff s
  | .sd rs1 rs2 imm => Sys2Proof.Machine.execSd rs1 rs2 imm s
  | .ecall => Sys2Proof.Machine.execEcall s

end Sys2Proof.Machine
end

