-- ==== Sys2Proof/Machine/Cycle.lean ====
section
/-! DEFINITION. One pass of the engine's cycle, fetch, advance, decode, execute
(spec/40_step_cycle.md R60 to R66), and where the word of the next fetch is placed. -/

namespace Sys2Proof.Machine

/-- Execute what the decoder answered: one instruction, or `Invalid` (R60, R54). -/
def execDecoded (d : Except Invalid Instr) (s : State) : Host.Outcome State Fault Refusal :=
  match d with
  | .ok i => exec i s
  | .error _ => execInvalid s

/-- The step proper, for a running machine (R60): the fetch comes before the advance, so a fetch fault
leaves the pc at `A` (R61); the advance comes before decoding, so every later fault leaves it at
`A + 4` (R62). -/
def cycle (s : State) : Host.Outcome State Fault Refusal :=
  match s.fetch with
  | .error kind => .next (s.raise kind)
  | .ok w => execDecoded (decode w) s.advance

/-- `step` is `cycle` while `run = Running`; in every other run state no step is defined (R20, R60,
R125), and the model stops by name (notes/assumptions/2.md). -/
def engineStep (s : State) : Host.Outcome State Fault Refusal :=
  match s.run with
  | .running => cycle s
  | r => .fault (.notRunning r)

/-- `s` as a load from outside would leave it for the next step to run the word: the word's 4 bytes at
the pc and `run = Running`. A pc from which no fetch can succeed is set to 0 first
(notes/assumptions/21.md, 22.md). -/
def placeFetchWord (s : State) (w : Word) : State :=
  let a : Word := if inRange s.pc 4 then s.pc else 0
  { s with mem := s.mem.storeBytes a.toNat w 4, pc := a, run := .running }

end Sys2Proof.Machine
end

