-- ==== Sys2Proof/Machine/Step.lean ====
section
/-! DEFINITION. The step function and `withFetchWord` under the host's names; what they do stands in
Machine/Cycle.lean. -/

namespace Sys2Proof.Machine

/-- One step of the engine (spec/40_step_cycle.md R60). -/
def step (s : State) : Host.Outcome State Fault Refusal := engineStep s

/-- `s` with the instruction of an opcode-table row placed where `step` fetches next
(notes/assumptions/21.md says how a program comes to run from reset). -/
def State.withFetchWord (s : State) (nbits w : Nat) : State := placeFetchWord s (tableWord nbits w)

end Sys2Proof.Machine
end

