-- ==== Sys2Proof/Machine/Elf.lean ====
section
/-! DEFINITION. `ElfParse`: reading an ELF object's segment and section tables
(spec/50_loader.md Part B, R95 to R103). The source names the format and gives none of its layout: the
whole file is the spec's decision D14, from general knowledge (PRESUMED, unsafe,
notes/assumptions/17.md). Field values are unbounded naturals, nothing is cut to 32 bits (R103). -/

namespace Sys2Proof.Machine

/-- A segment, as far as the loader reads it (R92, R99). -/
structure Segment where
  type : Nat
  flags : Nat
  deriving DecidableEq, Repr

/-- A section, as far as the loader reads it (R92, R100). -/
structure Section where
  type : Nat
  flags : Nat
  virtualAddress : Nat
  fileOffset : Nat
  size : Nat
  deriving DecidableEq, Repr

/-- What `ElfParse` delivers: both lists in the order of their tables (R92, R98). -/
structure ElfObject where
  segments : List Segment
  sections : List Section
  deriving DecidableEq, Repr

/-! ## Constants (R101) -/

/-- `PT_LOAD`. -/
def ptLoad : Nat := 1
/-- `PF_X`. -/
def pfX : Nat := 0x1
/-- `PF_W`. -/
def pfW : Nat := 0x2
/-- `PF_R`. -/
def pfR : Nat := 0x4
/-- `SHT_PROGBITS`. -/
def shtProgbits : Nat := 1
/-- `SHF_WRITE`. -/
def shfWrite : Nat := 0x1
/-- `SHF_ALLOC`. -/
def shfAlloc : Nat := 0x2
/-- `SHF_EXECINSTR`. -/
def shfExecinstr : Nat := 0x4
/-- The magic `7F 45 4C 46` (R96). -/
def elfMagic : List Byte := [0x7F, 0x45, 0x4C, 0x46]

/-! ## Layouts -/

/-- Where a field stands from the start of its header or entry, and its size, in bytes. -/
structure FieldAt where
  offset : Nat
  size : Nat
  deriving DecidableEq, Repr

/-- The fields the loader reads in one ELF class (R97, R99, R100). -/
structure ElfLayout where
  ehSize : Nat
  phSize : Nat
  shSize : Nat
  phoff : FieldAt
  shoff : FieldAt
  phentsize : FieldAt
  phnum : FieldAt
  shentsize : FieldAt
  shnum : FieldAt
  segType : FieldAt
  segFlags : FieldAt
  secType : FieldAt
  secFlags : FieldAt
  secAddress : FieldAt
  secOffset : FieldAt
  secSize : FieldAt
  deriving DecidableEq, Repr

/-- Class 32: the left columns of R97, R99, R100. -/
def elfLayout32 : ElfLayout where
  ehSize := 52
  phSize := 32
  shSize := 40
  phoff := ⟨28, 4⟩
  shoff := ⟨32, 4⟩
  phentsize := ⟨42, 2⟩
  phnum := ⟨44, 2⟩
  shentsize := ⟨46, 2⟩
  shnum := ⟨48, 2⟩
  segType := ⟨0, 4⟩
  segFlags := ⟨24, 4⟩
  secType := ⟨4, 4⟩
  secFlags := ⟨8, 4⟩
  secAddress := ⟨12, 4⟩
  secOffset := ⟨16, 4⟩
  secSize := ⟨20, 4⟩

/-- Class 64: the right columns of R97, R99, R100. -/
def elfLayout64 : ElfLayout where
  ehSize := 64
  phSize := 56
  shSize := 64
  phoff := ⟨32, 8⟩
  shoff := ⟨40, 8⟩
  phentsize := ⟨54, 2⟩
  phnum := ⟨56, 2⟩
  shentsize := ⟨58, 2⟩
  shnum := ⟨60, 2⟩
  segType := ⟨0, 4⟩
  segFlags := ⟨4, 4⟩
  secType := ⟨4, 4⟩
  secFlags := ⟨8, 8⟩
  secAddress := ⟨16, 8⟩
  secOffset := ⟨24, 8⟩
  secSize := ⟨32, 8⟩

/-- The layout that identification byte 4 selects (R96, R102 item 2). -/
def elfLayout (cls : Byte) : Option ElfLayout :=
  if cls = 1 then some elfLayout32 else if cls = 2 then some elfLayout64 else none

/-! ## Reading -/

/-- A little-endian unsigned integer (R95). -/
def leNat : List Byte → Nat
  | [] => 0
  | b :: bs => b.toNat + 256 * leNat bs

/-- The field `f` of the header or entry that starts at byte `base`. Every field read lies within the
input once the checks of R102 have passed. -/
def readField (binary : List Byte) (base : Nat) (f : FieldAt) : Nat :=
  leNat ((binary.drop (base + f.offset)).take f.size)

/-- Program header entry at byte `base` (R99). -/
def readSegment (binary : List Byte) (l : ElfLayout) (base : Nat) : Segment where
  type := readField binary base l.segType
  flags := readField binary base l.segFlags

/-- Section header entry at byte `base` (R100). -/
def readSection (binary : List Byte) (l : ElfLayout) (base : Nat) : Section where
  type := readField binary base l.secType
  flags := readField binary base l.secFlags
  virtualAddress := readField binary base l.secAddress
  fileOffset := readField binary base l.secOffset
  size := readField binary base l.secSize

/-- The two tables, by a layout (R97, R98): entry `i` starts at `off + i * entsize`; R102 items 4 to 6
refuse a short input and a table that is too narrow or reaches past the input. -/
def readTables (binary : List Byte) (l : ElfLayout) : Option ElfObject :=
  let phoff := readField binary 0 l.phoff
  let phentsize := readField binary 0 l.phentsize
  let phnum := readField binary 0 l.phnum
  let shoff := readField binary 0 l.shoff
  let shentsize := readField binary 0 l.shentsize
  let shnum := readField binary 0 l.shnum
  if binary.length < l.ehSize then none
  else if phnum > 0 ∧ (phentsize < l.phSize ∨ phoff + phnum * phentsize > binary.length) then none
  else if shnum > 0 ∧ (shentsize < l.shSize ∨ shoff + shnum * shentsize > binary.length) then none
  else some
    { segments := (List.range phnum).map fun i => readSegment binary l (phoff + i * phentsize)
      sections := (List.range shnum).map fun j => readSection binary l (shoff + j * shentsize) }

/-- `ElfParse(binary)` (R95, R96, R102): `none` is a parse failure. -/
def elfParse (binary : List Byte) : Option ElfObject :=
  if binary.length < 16 ∨ binary.take 4 ≠ elfMagic then none
  else
    match elfLayout (binary.getD 4 0) with
    | none => none
    | some l => if binary.getD 5 0 ≠ 1 then none else readTables binary l

end Sys2Proof.Machine
end

