-- ==== Sys2Proof/Machine/Loader.lean ====
section
/-! DEFINITION. The program loader `Load(binary)` (spec/50_loader.md Part A, R90 to R94, R104 to R108).
The algorithm takes the parser as an argument (`loadWith`), since the spec names `ElfParse` an open
parameter (R5, D14); `load` is the algorithm at the spec's own parser. -/

namespace Sys2Proof.Machine

/-- R92 step 2: type exactly loadable, flags EXACTLY readable + executable (R93). -/
def isExecSegment (seg : Segment) : Bool :=
  decide (seg.type = ptLoad ∧ seg.flags = pfR ||| pfX)

/-- R92 step 3: type exactly program bits, flags EXACTLY allocated + executable (R93). -/
def isTextSection (sec : Section) : Bool :=
  decide (sec.type = shtProgbits ∧ sec.flags = shfAlloc ||| shfExecinstr)

/-- Write the bytes from `addr` up, lowest first. -/
def copyBytes : Memory → Nat → List Byte → Memory
  | m, _, [] => m
  | m, addr, b :: bs => copyBytes (m.poke addr b) (addr + 1) bs

/-- The bytes of the section in the input, `[file_offset, file_offset + size)` (R92 step 4). -/
def sectionBytes (binary : List Byte) (sec : Section) : List Byte :=
  (binary.drop sec.fileOffset).take sec.size

/-- R92 steps 1 to 4, the checks: the section to load, or the error. The first match is taken (R104, the
spec's decision D15, notes/assumptions/18.md), the segment is only a gate (R106), and bytes beyond the
input are `MalformedElf` after the overflow check (R105, D16, notes/assumptions/19.md). -/
def selectSection (parse : List Byte → Option ElfObject) (binary : List Byte) :
    Except LoadError Section :=
  match parse binary with
  | none => .error .malformedElf
  | some elf =>
    match elf.segments.find? isExecSegment with
    | none => .error .noExecutableSegment
    | some _ =>
      match elf.sections.find? isTextSection with
      | none => .error .noTextSection
      | some sec =>
        if sec.virtualAddress + sec.size > Config.memSize then .error .imageOverflow
        else if sec.fileOffset + sec.size > binary.length then .error .malformedElf
        else .ok sec

/-- R92 steps 4 and 5, the effect: the copy, then the pc and the run state; no register is written
(R94, R107). The pc comes from the section header (the spec's decision D7, notes/assumptions/16.md). -/
def loadSection (binary : List Byte) (sec : Section) (s : State) : State :=
  { s with
    mem := copyBytes s.mem sec.virtualAddress (sectionBytes binary sec)
    pc := BitVec.ofNat 32 sec.virtualAddress
    run := .running }

/-- `Load(binary)` with a given parser (R90, R92): defined in `Unloaded` only; a failure changes the run
state and nothing else (R91). -/
def loadWith (parse : List Byte → Option ElfObject) (binary : List Byte) (s : State) :
    Host.Outcome State Fault Refusal :=
  match s.run with
  | .unloaded =>
    match selectSection parse binary with
    | .error kind => .next { s with run := .loadFailed kind }
    | .ok sec => .next (loadSection binary sec s)
  | r => .refused (.loadNotDefined r)

/-- `Load(binary)` (R90). -/
def load (binary : List Byte) (s : State) : Host.Outcome State Fault Refusal :=
  loadWith elfParse binary s

end Sys2Proof.Machine
end

