-- ==== Sys2Proof/Machine/Interface.lean ====
section
/-! DEFINITION. What the outside world can do to the machine: reset it, load one input, let it step,
and read a snapshot between steps (spec/10_state.md R21, R22; spec/70_reset_and_hazards.md R135, R136;
decision D18). Nothing else reaches it: no interrupt, no host write, no second agent (R21, R68, R120). -/

namespace Sys2Proof.Machine

/-- The operations of the machine's life (R136, D18). -/
inductive Event where
  /-- Reset: the creation of a fresh state (R135). -/
  | reset
  /-- `Load(binary)` (R90). -/
  | load (binary : List Byte)
  /-- One step of the engine (R60). -/
  | step
  deriving DecidableEq, Repr

/-- What an operation does (notes/assumptions/28.md: reset is accepted in every run state). -/
def react (e : Event) (s : State) : Host.Outcome State Fault Refusal :=
  match e with
  | .reset => .next State.reset
  | .load binary => load binary s
  | .step => step s

/-- What the snapshot interface delivers: the whole image and the whole register file, and neither the
pc nor the run state (R22). -/
structure Snapshot where
  memory : List Byte
  registers : Vector Word 32
  deriving DecidableEq, Repr

/-- The read-only snapshot (R22): the byte at address `a` is entry `a` of `memory`. -/
def snapshot (s : State) : Snapshot where
  memory := (List.range Config.memSize).map s.mem.byte
  registers := s.x

/-- The result the engine delivers: the value of `Halted(v)` (R86). -/
def result (s : State) : Option Word :=
  match s.run with
  | .halted v => some v
  | _ => none

end Sys2Proof.Machine
end

