-- ==== Sys2Proof/Safety.lean ====
section
/-! DEFINITION. The terms that claims use: what two states share, which words are no instruction, the
invariant, reachable states, terminal states and a run without a fatal error. -/

namespace Sys2Proof.Machine

/-- Every register of `t` holds what it holds in `s`. -/
def SameRegs (s t : State) : Prop := ∀ q, t.reg q = s.reg q

/-- Every register of `t` other than `r` holds what it holds in `s`. -/
def SameRegsExcept (s t : State) (r : RegIx) : Prop := ∀ q, q ≠ r → t.reg q = s.reg q

/-- Every byte of memory reads in `t` as in `s`. -/
def SameBytes (s t : State) : Prop := ∀ a, t.mem.byte a = s.mem.byte a

/-- Every byte of memory outside the `n` bytes from `a` up reads in `t` as in `s`. -/
def SameBytesOutside (s t : State) (a n : Nat) : Prop :=
  ∀ q, q < a ∨ a + n ≤ q → t.mem.byte q = s.mem.byte q

/-- The word is none of the seven instructions: an opcode outside the six known ones, or opcode 0x13 with
`w[14:12]` in 2 .. 7 (R51, R52). -/
def IsUnknownWord (w : Word) : Prop :=
  (w.extractLsb' 0 7 ≠ 0x33#7 ∧ w.extractLsb' 0 7 ≠ 0x13#7 ∧ w.extractLsb' 0 7 ≠ 0x63#7 ∧
    w.extractLsb' 0 7 ≠ 0x6F#7 ∧ w.extractLsb' 0 7 ≠ 0x23#7 ∧ w.extractLsb' 0 7 ≠ 0x73#7) ∨
  (w.extractLsb' 0 7 = 0x13#7 ∧ 2 ≤ (w.extractLsb' 12 3).toNat)

/-- Register 10 still holds the value a halted machine reported: nothing runs after ECALL (R85, R125). -/
def State.HaltReportsX10 (s : State) : Prop :=
  ∀ v, s.run = .halted v → s.reg Config.resultReg = v

/-- The invariant every operation keeps: canonical memory, and a halted machine's value in register 10. -/
def State.Inv (s : State) : Prop := s.mem.wf = true ∧ s.HaltReportsX10

/-- The states the machine can be in: from reset by loads, steps and further resets (R136). -/
inductive Reachable : State → Prop where
  | reset : Reachable State.reset
  | react {s t : State} (e : Event) (hs : Reachable s) (h : Machine.react e s = .next t) : Reachable t

/-- A terminal run state: only a reset leaves it (R20, R125). -/
def RunState.terminal : RunState → Bool
  | .unloaded => false
  | .running => false
  | .loadFailed _ => true
  | .halted _ => true
  | .fault _ => true

/-- No fatal error and no load error: the machine waits, runs or has halted. -/
def State.ok (s : State) : Bool :=
  match s.run with
  | .unloaded => true
  | .running => true
  | .halted _ => true
  | .loadFailed _ => false
  | .fault _ => false

/-- A safe run from `s`: however many steps are taken, no fatal error is met (R115). -/
def RunsSafely (s : State) : Prop := ∀ k t, Sys2Proof.core.run k s = .next t → t.ok = true

/-- From `s` the machine halts with the value `v` (R85, R86). -/
def HaltsWith (s : State) (v : Word) : Prop :=
  ∃ k t, Sys2Proof.core.run k s = .next t ∧ result t = some v

end Sys2Proof.Machine
end

