-- ==== Sys2Proof/Certificates/Slice0/Obligations.lean ====
section
/-! DEFINITION. The statements for the provers. Each docstring names the rule of spec/ it formalises and,
where a clause rests on a decision of the spec or a choice of the model, the log entry. -/

open Sys2Proof
open Sys2Proof.Machine

/-! ## Result, frame and completion of every instruction (at `exec`: the pc is already advanced) -/

/-- R70, R73: ADD completes in every state; the 32-bit sum goes to `rd` (register 0 too, R12), carry lost;
nothing else changes. -/
def Obligations.AddCompletesWithWrappedSum : Prop :=
  ∀ (rd rs1 rs2 : RegIx) (s : State), ∃ t, exec (.add rd rs1 rs2) s = .next t ∧
    (t.reg rd).toNat = ((s.reg rs1).toNat + (s.reg rs2).toNat) % 2 ^ 32 ∧
    SameRegsExcept s t rd ∧ SameBytes s t ∧ t.pc = s.pc ∧ t.run = s.run

/-- R71, R73: ADDI completes in every state; the wrapped sum of `x[rs1]` and the extended immediate goes
to `rd`; nothing else changes. -/
def Obligations.AddiCompletesWithWrappedSum : Prop :=
  ∀ (rd rs1 : RegIx) (imm : Word) (s : State), ∃ t, exec (.addi rd rs1 imm) s = .next t ∧
    (t.reg rd).toNat = ((s.reg rs1).toNat + imm.toNat) % 2 ^ 32 ∧
    SameRegsExcept s t rd ∧ SameBytes s t ∧ t.pc = s.pc ∧ t.run = s.run

/-- R72: MV completes in every state; `rd` gets exactly `x[rs1]`; nothing else changes. -/
def Obligations.MvCompletesWithExactCopy : Prop :=
  ∀ (rd rs1 : RegIx) (s : State), ∃ t, exec (.mv rd rs1) s = .next t ∧
    t.reg rd = s.reg rs1 ∧
    SameRegsExcept s t rd ∧ SameBytes s t ∧ t.pc = s.pc ∧ t.run = s.run

/-- R75: BEQZ completes in every state; the pc moves by `off` exactly when all 32 bits of `x[rs1]` are
zero; no register, no byte and not the run state changes. The wrap of the pc is decision D8
(notes/assumptions/10.md). -/
def Obligations.BeqzCompletesAndBranchesOnZeroOnly : Prop :=
  ∀ (rs1 : RegIx) (off : Word) (s : State), ∃ t, exec (.beqz rs1 off) s = .next t ∧
    (s.reg rs1 = 0 → t.pc.toNat = (s.pc.toNat + off.toNat) % 2 ^ 32) ∧
    (s.reg rs1 ≠ 0 → t.pc = s.pc) ∧
    SameRegs s t ∧ SameBytes s t ∧ t.run = s.run

/-- R76: JAL completes in every state; with `A` the instruction's own address, `rd` gets `A + 8` (register
0 too) and the pc becomes `A + 2 * hoff`, both modulo 2^32; nothing else changes. The wrap of the pc is
decision D8 (notes/assumptions/10.md). -/
def Obligations.JalCompletesWithLinkAndTarget : Prop :=
  ∀ (rd : RegIx) (hoff A : Word) (s : State), s.pc = A + 4 →
    ∃ t, exec (.jal rd hoff) s = .next t ∧
      t.reg rd = A + 8 ∧ t.pc = A + 2 * hoff ∧
      SameRegsExcept s t rd ∧ SameBytes s t ∧ t.run = s.run

/-- R85: ECALL completes in every state: the run state becomes `Halted(x[10])`, and no register, no byte
and not the pc changes. -/
def Obligations.EcallCompletesByHalting : Prop :=
  ∀ s : State, ∃ t, exec .ecall s = .next t ∧ t.run = .halted (s.reg 10) ∧
    SameRegs s t ∧ SameBytes s t ∧ t.pc = s.pc

/-- R80, R83: SD completes when `rs2` is not 31 and the 8 bytes from its address lie in memory:
`x[rs2 + 1]` stands little-endian at the address, `x[rs2]` 4 bytes above it, every other byte, every
register, the pc and the run state are as before. The premise `wf` is the invariant of
`EveryStepKeepsTheInvariant`. No alignment premise: decision D9 (notes/assumptions/11.md); the address is
a sum modulo 2^32: decision D21 (15.md). -/
def Obligations.SdCompletesWithBothWordsStored : Prop :=
  ∀ (rs1 rs2 next : RegIx) (imm : Word) (s : State) (a : Nat), s.mem.wf = true →
    next.val = rs2.val + 1 → (s.sdAddress rs1 imm).toNat = a → a + 8 ≤ 0x100000 →
    ∃ t, exec (.sd rs1 rs2 imm) s = .next t ∧
      (∀ k, k < 4 → t.mem.byte (a + k) = (s.reg next).extractLsb' (8 * k) 8) ∧
      (∀ k, k < 4 → t.mem.byte (a + 4 + k) = (s.reg rs2).extractLsb' (8 * k) 8) ∧
      SameBytesOutside s t a 8 ∧ SameRegs s t ∧ t.pc = s.pc ∧ t.run = s.run

/-- R14, R118: SD with `rs2 = 31` ends in `Fault(RegisterIndexOutOfRange)` whatever its address is, and
changes nothing but the run state. The spec's decisions D10, D11 (notes/assumptions/12.md, 13.md). -/
def Obligations.SdOfRegister31Faults : Prop :=
  ∀ (rs1 rs2 : RegIx) (imm : Word) (s : State), rs2.val = 31 →
    exec (.sd rs1 rs2 imm) s = .next { s with run := .fault .registerIndexOutOfRange }

/-- R117, R121: SD whose first write is out of range ends in `Fault(OutOfBoundsAccess)` and changes
nothing but the run state: no byte of a partly out-of-range access is written. The spec's decision D12
(notes/assumptions/14.md); the address is a sum modulo 2^32, decision D21 (15.md). -/
def Obligations.SdFirstWriteOutOfRangeWritesNothing : Prop :=
  ∀ (rs1 rs2 : RegIx) (imm : Word) (s : State), rs2.val ≠ 31 →
    0xFFFFC < (s.sdAddress rs1 imm).toNat →
    exec (.sd rs1 rs2 imm) s = .next { s with run := .fault .outOfBoundsAccess }

/-- R82, R117: SD whose second write alone is out of range ends in `Fault(OutOfBoundsAccess)` with the
first word written and nothing else changed but the run state. The spec's decision D12
(notes/assumptions/14.md); the address is a sum modulo 2^32, decision D21 (15.md), and a misaligned SD
stores like any other (R31), decision D9 (11.md). -/
def Obligations.SdSecondWriteOutOfRangeKeepsFirstWord : Prop :=
  ∀ (rs1 rs2 next : RegIx) (imm : Word) (s : State) (a : Nat), s.mem.wf = true →
    next.val = rs2.val + 1 → (s.sdAddress rs1 imm).toNat = a → 0xFFFF9 ≤ a → a ≤ 0xFFFFC →
    ∃ t, exec (.sd rs1 rs2 imm) s = .next t ∧ t.run = .fault .outOfBoundsAccess ∧
      (∀ k, k < 4 → t.mem.byte (a + k) = (s.reg next).extractLsb' (8 * k) 8) ∧
      SameBytesOutside s t a 4 ∧ SameRegs s t ∧ t.pc = s.pc

/-- R13, R81, R84: whatever SD does, completing or faulting, it answers a next state, keeps every register
and the pc, and keeps every byte outside the 8 bytes from its address; the address is base plus
displacement modulo 2^32 (decision D21, notes/assumptions/15.md). -/
def Obligations.SdTouchesOnlyItsEightBytes : Prop :=
  ∀ (rs1 rs2 : RegIx) (imm : Word) (s : State) (a : Nat), s.mem.wf = true →
    (s.sdAddress rs1 imm).toNat = a →
    a = ((s.reg rs1).toNat + imm.toNat) % 2 ^ 32 ∧
    ∃ t, exec (.sd rs1 rs2 imm) s = .next t ∧
      SameBytesOutside s t a 8 ∧ SameRegs s t ∧ t.pc = s.pc

/-- R12: no register is hardwired: a value written to any register, register 0 among them, is read back,
and the other registers keep theirs; register 0 is 0 at reset. -/
def Obligations.EveryRegisterKeepsWhatIsWritten : Prop :=
  ∀ (s : State) (r : RegIx) (v : Word),
    (s.setReg r v).reg r = v ∧ SameRegsExcept s (s.setReg r v) r ∧ (s.setReg 0 v).reg 0 = v ∧
      State.reset.reg 0 = 0

/-! ## One step from the fetched word -/

/-- R60, R62: a running machine whose word at the pc decodes to an instruction executes exactly that
instruction in the state with the pc advanced by 4. -/
def Obligations.StepExecutesDecodedInstruction : Prop :=
  ∀ (s : State) (w : Word) (i : Instr), s.run = .running → s.fetch = .ok w → decode w = .ok i →
    step s = exec i { s with pc := s.pc + 4 }

/-- R61: a fetch that reaches beyond memory ends in `Fault(OutOfBoundsAccess)`; the pc is NOT advanced and
nothing else changes. -/
def Obligations.FetchBeyondMemoryFaults : Prop :=
  ∀ s : State, s.run = .running → 0xFFFFC < s.pc.toNat →
    step s = .next { s with run := .fault .outOfBoundsAccess }

/-- R28, R30, R31: at every pc up to 0xFFFFC, aligned or not, the fetch delivers the word whose byte `k` is
the byte at `pc + k`. -/
def Obligations.FetchIsLittleEndianAtAnyAlignment : Prop :=
  ∀ s : State, s.pc.toNat ≤ 0xFFFFC → ∃ w, s.fetch = .ok w ∧
    w.toNat = (s.mem.byte s.pc.toNat).toNat + 2 ^ 8 * (s.mem.byte (s.pc.toNat + 1)).toNat +
      2 ^ 16 * (s.mem.byte (s.pc.toNat + 2)).toNat + 2 ^ 24 * (s.mem.byte (s.pc.toNat + 3)).toNat

/-- R116: a word that is none of the seven instructions, and no other, ends the step in
`Fault(UnknownInstruction)` with the pc advanced and every register and byte as before; its address and
the word itself can be recomputed from the state after. -/
def Obligations.UnknownWordFaultsAfterTheAdvance : Prop :=
  ∀ (s : State) (w : Word), s.run = .running → s.fetch = .ok w →
    (IsUnknownWord w →
      step s = .next { s with pc := s.pc + 4, run := .fault .unknownInstruction } ∧
      memRead s.mem (s.pc + 4 - 4) 4 = .ok w) ∧
    (∀ t, step s = .next t → t.run = .fault .unknownInstruction → IsUnknownWord w)

/-- R70: one step of a machine whose fetched word has opcode 0x33, from the bits of the word. -/
def Obligations.StepOfOpcode33AddsRegisters : Prop :=
  ∀ (s : State) (w : Word), s.run = .running → s.fetch = .ok w → w.extractLsb' 0 7 = 0x33#7 →
    step s = .next (State.setReg { s with pc := s.pc + 4 } (w.extractLsb' 7 5).toFin
      (s.reg (w.extractLsb' 15 5).toFin + s.reg (w.extractLsb' 20 5).toFin))

/-- R71: one step of a machine whose fetched word has opcode 0x13 and `w[14:12] = 0`, from the bits of the
word. -/
def Obligations.StepOfOpcode13Funct0AddsImmediate : Prop :=
  ∀ (s : State) (w : Word), s.run = .running → s.fetch = .ok w → w.extractLsb' 0 7 = 0x13#7 →
    w.extractLsb' 12 3 = 0#3 →
    step s = .next (State.setReg { s with pc := s.pc + 4 } (w.extractLsb' 7 5).toFin
      (s.reg (w.extractLsb' 15 5).toFin + (w.extractLsb' 20 12).signExtend 32))

/-- R72: one step of a machine whose fetched word has opcode 0x13 and `w[14:12] = 1`, from the bits of the
word: `w[31:20]` has no effect. -/
def Obligations.StepOfOpcode13Funct1CopiesRegister : Prop :=
  ∀ (s : State) (w : Word), s.run = .running → s.fetch = .ok w → w.extractLsb' 0 7 = 0x13#7 →
    w.extractLsb' 12 3 = 1#3 →
    step s = .next (State.setReg { s with pc := s.pc + 4 } (w.extractLsb' 7 5).toFin
      (s.reg (w.extractLsb' 15 5).toFin))

/-- R75 with R47: one step of a machine whose fetched word has opcode 0x63: the target is
`A + 4 + sext_6({w[31], w[11:7]})` modulo 2^32. The offset formula is the spec's decision D4
(notes/assumptions/7.md), the wrap of the target (R18) its decision D8 (10.md). -/
def Obligations.StepOfOpcode63BranchesFromAdvancedPc : Prop :=
  ∀ (s : State) (w : Word), s.run = .running → s.fetch = .ok w → w.extractLsb' 0 7 = 0x63#7 →
    step s = .next { s with pc := if s.reg (w.extractLsb' 15 5).toFin = 0
      then s.pc + 4 + (w.extractLsb' 31 1 ++ w.extractLsb' 7 5).signExtend 32
      else s.pc + 4 }

/-- R76 with R48: one step of a machine whose fetched word has opcode 0x6F: link `A + 8`, target
`A + 2 * sext_11({w[31], w[30:21]})` modulo 2^32. The offset formula is the spec's decision D5
(notes/assumptions/8.md), the wrap of the target (R18) its decision D8 (10.md). -/
def Obligations.StepOfOpcode6FLinksAndJumps : Prop :=
  ∀ (s : State) (w : Word), s.run = .running → s.fetch = .ok w → w.extractLsb' 0 7 = 0x6F#7 →
    step s = .next (State.setReg
      { s with pc := s.pc + 2 * (w.extractLsb' 31 1 ++ w.extractLsb' 21 10).signExtend 32 }
      (w.extractLsb' 7 5).toFin (s.pc + 8))

/-- R85: one step of a machine whose fetched word has opcode 0x73, whatever its other bits are: halted
with the value of register 10, the pc advanced, nothing else changed, and no further step. -/
def Obligations.StepOfOpcode73Halts : Prop :=
  ∀ (s : State) (w : Word), s.run = .running → s.fetch = .ok w → w.extractLsb' 0 7 = 0x73#7 →
    step s = .next { s with pc := s.pc + 4, run := .halted (s.reg 10) } ∧
    ∀ t, step { s with pc := s.pc + 4, run := .halted (s.reg 10) } ≠ .next t

/-! ## Rules of the whole machine -/

/-- R20, R64, R125: outside `Running` no step is defined: the model's step stops, naming the run state
(the model's choice, notes/assumptions/2.md), and so does every longer run; in `Running` a step always
has a next state, and never the run state of before a load. -/
def Obligations.StepsExistExactlyWhileRunning : Prop :=
  (∀ (s : State) (k : Nat), s.run ≠ .running → core.run (k + 1) s = .fault (.notRunning s.run)) ∧
  (∀ s : State, s.run = .running → ∃ t, step s = .next t ∧ t.run ≠ .unloaded ∧
    ∀ kind, t.run ≠ .loadFailed kind)

/-- R115 to R118, R121, R85: the run state after a step of a running machine, for every word and every
state, in the order in which the events are tested: fetch, decode, ECALL, SD's register index, SD's two
writes; every other step goes on. The place of the index check is decision D11 (notes/assumptions/13.md),
the kind D10 (12.md), SD's immediate D6 (9.md), its address as a sum modulo 2^32 D21 (15.md). That a
misaligned SD goes on (R31) is D9 (11.md), that a BEQZ or JAL whose target wraps goes on (R18) is D8
(10.md). -/
def Obligations.RunStateAfterStepFollowsFaultPriority : Prop :=
  ∀ s t : State, s.run = .running → step s = .next t →
    (0xFFFFC < s.pc.toNat → t.run = .fault .outOfBoundsAccess) ∧
    ∀ w, s.fetch = .ok w →
      (IsUnknownWord w → t.run = .fault .unknownInstruction) ∧
      (w.extractLsb' 0 7 = 0x73#7 → t.run = .halted (s.reg 10)) ∧
      (w.extractLsb' 0 7 = 0x23#7 →
        ((w.extractLsb' 20 5).toNat = 31 → t.run = .fault .registerIndexOutOfRange) ∧
        ((w.extractLsb' 20 5).toNat ≠ 31 →
          (((s.reg (w.extractLsb' 15 5).toFin).toNat +
              ((w.extractLsb' 25 7).toNat * 32 + (w.extractLsb' 7 5).toNat)) % 2 ^ 32 ≤ 0xFFFF8 →
            t.run = .running) ∧
          (0xFFFF8 < ((s.reg (w.extractLsb' 15 5).toFin).toNat +
              ((w.extractLsb' 25 7).toNat * 32 + (w.extractLsb' 7 5).toNat)) % 2 ^ 32 →
            t.run = .fault .outOfBoundsAccess))) ∧
      (¬ IsUnknownWord w → w.extractLsb' 0 7 ≠ 0x73#7 → w.extractLsb' 0 7 ≠ 0x23#7 →
        t.run = .running)

/-- R16, R61, R62, R77: the pc after every step: `A + 4`, but for a taken BEQZ, a JAL, and a fetch fault,
which leaves `A`. The offset formulas are the spec's decisions D4, D5 (notes/assumptions/7.md, 8.md), the
wrap of the targets (R18) its decision D8 (10.md). -/
def Obligations.PcAfterStepIsAdvancedUnlessBranching : Prop :=
  ∀ s t : State, step s = .next t →
    (∀ w, s.fetch = .ok w →
      (w.extractLsb' 0 7 = 0x6F#7 →
        t.pc = s.pc + 2 * (w.extractLsb' 31 1 ++ w.extractLsb' 21 10).signExtend 32) ∧
      (w.extractLsb' 0 7 = 0x63#7 → s.reg (w.extractLsb' 15 5).toFin = 0 →
        t.pc = s.pc + 4 + (w.extractLsb' 31 1 ++ w.extractLsb' 7 5).signExtend 32) ∧
      (w.extractLsb' 0 7 ≠ 0x6F#7 →
        ¬ (w.extractLsb' 0 7 = 0x63#7 ∧ s.reg (w.extractLsb' 15 5).toFin = 0) → t.pc = s.pc + 4)) ∧
    (∀ kind, s.fetch = .error kind → t.pc = s.pc)

/-- R13, R84: which steps write what, over all words: only opcode 0x23 changes memory, and then at most 8
bytes; only opcodes 0x33, 0x13, 0x6F change a register, and then at most the one `w[11:7]` names; a step
that fetches no word changes neither. SD's immediate (R49) is the spec's decision D6
(notes/assumptions/9.md), its address as a sum modulo 2^32 (R81) decision D21 (15.md). -/
def Obligations.OnlySdWritesMemoryAndOnlyRdIsWritten : Prop :=
  ∀ s t : State, s.mem.wf = true → step s = .next t →
    (∀ w, s.fetch = .ok w →
      (w.extractLsb' 0 7 ≠ 0x23#7 → SameBytes s t) ∧
      (∃ a, SameBytesOutside s t a 8 ∧
        a = ((s.reg (w.extractLsb' 15 5).toFin).toNat +
          ((w.extractLsb' 25 7).toNat * 32 + (w.extractLsb' 7 5).toNat)) % 2 ^ 32) ∧
      SameRegsExcept s t (w.extractLsb' 7 5).toFin ∧
      (w.extractLsb' 0 7 ≠ 0x33#7 → w.extractLsb' 0 7 ≠ 0x13#7 → w.extractLsb' 0 7 ≠ 0x6F#7 →
        SameRegs s t)) ∧
    (∀ kind, s.fetch = .error kind → SameBytes s t ∧ SameRegs s t ∧ t.pc = s.pc)

/-- R32, R37, R84 (no load exists): two running machines that agree on registers, pc and the 4 bytes at
the pc, and differ anywhere else in memory, agree after one step on registers, pc and run state, and every
byte of memory is either the same in both or was written by neither. -/
def Obligations.MemoryBesidesTheFetchedWordIsNeverRead : Prop :=
  ∀ s s' t t' : State, s.mem.wf = true → s'.mem.wf = true → s.x = s'.x → s.pc = s'.pc →
    s.run = s'.run →
    (∀ k, k < 4 → s.mem.byte (s.pc.toNat + k) = s'.mem.byte (s.pc.toNat + k)) →
    step s = .next t → step s' = .next t' →
    t.x = t'.x ∧ t.pc = t'.pc ∧ t.run = t'.run ∧
    ∀ a, t.mem.byte a = t'.mem.byte a ∨
      (t.mem.byte a = s.mem.byte a ∧ t'.mem.byte a = s'.mem.byte a)

/-- R30, R36: a word stored by SD and fetched later is the same 32-bit value: after an SD at `a` that
completes, a fetch at `a` delivers `x[rs2 + 1]` and a fetch at `a + 4` delivers `x[rs2]`, with no fence
between. The address `a` is a sum modulo 2^32, decision D21 (notes/assumptions/15.md), and SD stores at a
misaligned one too (R31), decision D9 (11.md). -/
def Obligations.FetchSeesWordsStoredBySd : Prop :=
  ∀ (rs1 rs2 next : RegIx) (imm : Word) (s t : State), s.mem.wf = true →
    next.val = rs2.val + 1 → (s.sdAddress rs1 imm).toNat + 8 ≤ 0x100000 →
    exec (.sd rs1 rs2 imm) s = .next t →
    State.fetch { t with pc := s.sdAddress rs1 imm } = .ok (s.reg next) ∧
    State.fetch { t with pc := s.sdAddress rs1 imm + 4 } = .ok (s.reg rs2)

/-- R64 "runs for ever": a machine whose word at the pc is a JAL with `w[31:21] = 0` (a jump to itself)
is still running at that pc after any number of steps. A zero field is offset 0 under every reading of D5. -/
def Obligations.JumpToItselfRunsForever : Prop :=
  ∀ (s : State) (w : Word), s.run = .running → s.fetch = .ok w → w.extractLsb' 0 7 = 0x6F#7 →
    w.extractLsb' 21 11 = 0#11 →
    ∀ n, ∃ t, core.run n s = .next t ∧ t.run = .running ∧ t.pc = s.pc ∧ SameBytes s t

/-- R33, R85, R125, and the canonical form of the model's memory: the invariant holds after every step
that starts from a state in which it holds. -/
def Obligations.EveryStepKeepsTheInvariant : Prop :=
  ∀ s t : State, s.Inv → step s = .next t → t.Inv

/-- The invariant holds at reset. -/
def Obligations.ResetMeetsTheInvariant : Prop := State.reset.Inv

/-- R21, R136: the invariant holds in every state that resets, loads of any input and steps can lead to.
That a reset is accepted in every run state is DEDUCED (notes/assumptions/28.md). -/
def Obligations.ReachableStatesMeetTheInvariant : Prop := ∀ s : State, Reachable s → s.Inv

/-- R91, R135, R136: a reachable machine that has nothing loaded is the reset machine, and one whose load
failed is the reset machine but for its run state. The reset values and the run states rest on decisions
D2, D3, D19 (notes/assumptions/4.md, 5.md, 1.md), a reset in every run state is DEDUCED (28.md), a load
in `Unloaded` alone is the model's choice (20.md). -/
def Obligations.ReachableUnloadedIsTheResetState : Prop :=
  ∀ s : State, Reachable s →
    (s.run = .unloaded → s = State.reset) ∧
    (∀ kind, s.run = .loadFailed kind → s = { State.reset with run := .loadFailed kind })

/-- R10, R23, R135: what reset leaves. `x[1]` to `x[31]`, the pc and `Unloaded` are the spec's decisions
D2, D3, D19 (notes/assumptions/4.md, 5.md, 1.md). The last clause, that a reset is accepted in every run
state and gives `State.reset`, is DEDUCED (28.md). -/
def Obligations.ResetLeavesAllZeroAndUnloaded : Prop :=
  (∀ a, State.reset.mem.byte a = 0) ∧ (∀ r, State.reset.reg r = 0) ∧ State.reset.pc = 0 ∧
  State.reset.run = .unloaded ∧ ∀ s, react .reset s = .next State.reset

/-- R22: the snapshot delivers every byte of the image and every register; and in canonical memories it
leaves nothing out: two states with equal snapshots have equal memory and registers. -/
def Obligations.SnapshotShowsAllMemoryAndRegisters : Prop :=
  (∀ s : State, (snapshot s).memory.length = 0x100000 ∧
    (∀ a, a < 0x100000 → (snapshot s).memory[a]? = some (s.mem.byte a)) ∧
    (snapshot s).registers = s.x) ∧
  (∀ s t : State, s.mem.wf = true → t.mem.wf = true → snapshot s = snapshot t →
    s.mem = t.mem ∧ s.x = t.x)

/-- The model's `withFetchWord` (notes/assumptions/21.md, 22.md): the very next step executes the
instruction the decoder reads from the placed word, with the registers untouched and the pc advanced past
the word; the pc is the old one, or 0 where no fetch could succeed. -/
def Obligations.PlacedWordIsExecutedByTheNextStep : Prop :=
  ∀ (s : State) (nbits w : Nat) (i : Instr), s.mem.wf = true → decodeTableWord nbits w = some i →
    ∃ u, step (s.withFetchWord nbits w) = exec i u ∧ u.x = s.x ∧ u.run = .running ∧
      u.mem.wf = true ∧
      u.pc = (if s.pc.toNat ≤ 0xFFFFC then s.pc + 4 else 4) ∧
      SameBytesOutside s u (if s.pc.toNat ≤ 0xFFFFC then s.pc.toNat else 0) 4

/-! ## Encoding -/

/-- R54, R57: decoding the canonical word of any well-formed instruction gives that instruction back. The
immediate formulas are the spec's decisions D4, D5, D6 (notes/assumptions/7.md to 9.md). Well-formed means
the ranges of R56 on immediates held as 32-bit values, the model's choice (26.md). -/
def Obligations.DecodeInvertsEncode : Prop :=
  ∀ i : Instr, i.wf = true → decode (encode i) = .ok i ∧
    ∀ rest, decodeBytes (encodeBytes i ++ rest) = .ok (i, rest)

/-- R43, R57: what the decoder reads from any word is well-formed, and encoding it again gives the word
with exactly its ignored bits cleared (the table's used bits). The immediates' ranges are R56's and rest,
with the split of the SD immediate, on the spec's decisions D4, D5, D6 (R47 to R49, notes/assumptions/7.md
to 9.md); how immediates are held is the model's choice (26.md). -/
def Obligations.EncodeRestoresAllUsedBits : Prop :=
  ∀ (w : Word) (i : Instr), decode w = .ok i → i.wf = true ∧ encode i = w &&& i.row.used

/-- R50, R51, R52, R53: the complete map from a word to an instruction, by mask and match, in the table's
own numbers; the rows exclude each other, and every other word is invalid. -/
def Obligations.DecoderFollowsTheOpcodeMap : Prop :=
  ∀ w : Word,
    ((∃ rd rs1 rs2, decode w = .ok (.add rd rs1 rs2)) ↔ w &&& 0x0000007F = 0x00000033) ∧
    ((∃ rd rs1 imm, decode w = .ok (.addi rd rs1 imm)) ↔ w &&& 0x0000707F = 0x00000013) ∧
    ((∃ rd rs1, decode w = .ok (.mv rd rs1)) ↔ w &&& 0x0000707F = 0x00001013) ∧
    ((∃ rs1 off, decode w = .ok (.beqz rs1 off)) ↔ w &&& 0x0000007F = 0x00000063) ∧
    ((∃ rd hoff, decode w = .ok (.jal rd hoff)) ↔ w &&& 0x0000007F = 0x0000006F) ∧
    ((∃ rs1 rs2 imm, decode w = .ok (.sd rs1 rs2 imm)) ↔ w &&& 0x0000007F = 0x00000023) ∧
    (decode w = .ok .ecall ↔ w &&& 0x0000007F = 0x00000073) ∧
    ((∃ why, decode w = .error why) ↔ IsUnknownWord w)

/-- R44: the ignored bits take no part: two words of one row that agree on the bits R43 does not call
ignored decode to the same instruction. -/
def Obligations.IgnoredBitsDoNotMatter : Prop :=
  ∀ w w' : Word,
    (w.extractLsb' 0 7 = 0x33#7 → w &&& 0x01FF8FFF = w' &&& 0x01FF8FFF → decode w = decode w') ∧
    (w.extractLsb' 0 7 = 0x13#7 → w.extractLsb' 12 3 = 1#3 →
      w &&& 0x000FFFFF = w' &&& 0x000FFFFF → decode w = decode w') ∧
    (w.extractLsb' 0 7 = 0x63#7 → w &&& 0x800F8FFF = w' &&& 0x800F8FFF → decode w = decode w') ∧
    (w.extractLsb' 0 7 = 0x6F#7 → w &&& 0xFFE00FFF = w' &&& 0xFFE00FFF → decode w = decode w') ∧
    (w.extractLsb' 0 7 = 0x23#7 → w &&& 0xFFFF8FFF = w' &&& 0xFFFF8FFF → decode w = decode w') ∧
    (w.extractLsb' 0 7 = 0x73#7 → w &&& 0x0000007F = w' &&& 0x0000007F → decode w = decode w')

/-- R45: the ADDI immediate is bits 31:20 sign-extended, in -2048 .. 2047. -/
def Obligations.AddiImmediateIsSignExtended : Prop :=
  ∀ (w : Word) (rd rs1 : RegIx) (imm : Word), decode w = .ok (.addi rd rs1 imm) →
    imm = (w.extractLsb' 20 12).signExtend 32 ∧
    imm.toInt = (if w.toNat / 2 ^ 20 < 2048 then (w.toNat / 2 ^ 20 : Int)
      else (w.toNat / 2 ^ 20 : Int) - 4096) ∧
    -2048 ≤ imm.toInt ∧ imm.toInt ≤ 2047

/-- R42, R45, R47, R48, R49: every operand the decoder delivers, as arithmetic on the word: register
fields at bits 11:7, 19:15, 24:20; the ADDI immediate `w[30:20] - 2048 * w[31]`; the BEQZ offset `w[11:7]
- 32 * w[31]`; the JAL offset `w[30:21] - 1024 * w[31]`; the SD immediate `32 * w[31:25] + w[11:7]`, never
negative. The last three formulas are the spec's decisions D4, D5, D6 (notes/assumptions/7.md to 9.md). -/
def Obligations.DecodedOperandsAreTheFieldsOfTheWord : Prop :=
  ∀ w : Word,
    (∀ rd rs1 rs2, decode w = .ok (.add rd rs1 rs2) →
      rd.val = w.toNat / 2 ^ 7 % 32 ∧ rs1.val = w.toNat / 2 ^ 15 % 32 ∧
      rs2.val = w.toNat / 2 ^ 20 % 32) ∧
    (∀ rd rs1 imm, decode w = .ok (.addi rd rs1 imm) →
      rd.val = w.toNat / 2 ^ 7 % 32 ∧ rs1.val = w.toNat / 2 ^ 15 % 32 ∧
      imm.toInt = (w.toNat / 2 ^ 20 % 2048 : Int) - 2048 * (w.toNat / 2 ^ 31 : Int)) ∧
    (∀ rd rs1, decode w = .ok (.mv rd rs1) →
      rd.val = w.toNat / 2 ^ 7 % 32 ∧ rs1.val = w.toNat / 2 ^ 15 % 32) ∧
    (∀ rs1 off, decode w = .ok (.beqz rs1 off) → rs1.val = w.toNat / 2 ^ 15 % 32 ∧
      off.toInt = (w.toNat / 2 ^ 7 % 32 : Int) - 32 * (w.toNat / 2 ^ 31 : Int)) ∧
    (∀ rd hoff, decode w = .ok (.jal rd hoff) → rd.val = w.toNat / 2 ^ 7 % 32 ∧
      hoff.toInt = (w.toNat / 2 ^ 21 % 1024 : Int) - 1024 * (w.toNat / 2 ^ 31 : Int)) ∧
    (∀ rs1 rs2 imm, decode w = .ok (.sd rs1 rs2 imm) →
      rs1.val = w.toNat / 2 ^ 15 % 32 ∧ rs2.val = w.toNat / 2 ^ 20 % 32 ∧
      imm.toNat = 32 * (w.toNat / 2 ^ 25) + w.toNat / 2 ^ 7 % 32)

/-- Words written out from the spec's encodings (spec/95_test_vectors.md section 3) decode to the
instructions they stand for. The BEQZ, JAL and SD operands rest on the spec's decisions D4, D5, D6
(notes/assumptions/7.md to 9.md), and the names of the two refusals are the model's (25.md). -/
def Obligations.WrittenOutWordsDecode : Prop :=
  decode 0x002081B3 = .ok (.add 3 1 2) ∧
  decode 0xFFF28293 = .ok (.addi 5 5 0xFFFFFFFF) ∧
  decode 0xFFF29313 = .ok (.mv 6 5) ∧
  decode 0x80008E63 = .ok (.beqz 1 0xFFFFFFFC) ∧
  decode 0xFF4000EF = .ok (.jal 1 0xFFFFFFFA) ∧
  decode 0xFE828FA3 = .ok (.sd 5 8 0xFFF) ∧
  decode 0xFFFFFFF3 = .ok .ecall ∧
  decode 0x0002A313 = .error (.unknownFunct3 2) ∧
  decode 0x00000000 = .error (.unknownOpcode 0)

/-! ## Memory primitives -/

/-- R27, R28: `MemRead` fails exactly when the access reaches beyond memory, and otherwise delivers the
value whose bits `8k+7:8k` are the byte at `addr + k`. That a partly out-of-range access transfers no byte
is decision D12 (notes/assumptions/14.md). -/
def Obligations.MemReadIsBoundsCheckedLittleEndian : Prop :=
  ∀ (m : Memory) (addr : Word) (n : Nat), 1 ≤ n →
    (0x100000 < addr.toNat + n → memRead m addr n = .error .outOfBoundsAccess) ∧
    (addr.toNat + n ≤ 0x100000 → ∃ v, memRead m addr n = .ok v ∧
      ∀ k, k < n → v.extractLsb' (8 * k) 8 = m.byte (addr.toNat + k))

/-- R27, R29: `MemWrite` fails exactly when the access reaches beyond memory, and otherwise puts bits
`8k+7:8k` at `addr + k`, leaves every other byte, and keeps the canonical form (notes/assumptions/6.md).
That a partly out-of-range access transfers no byte is decision D12 (14.md). -/
def Obligations.MemWriteIsBoundsCheckedLittleEndian : Prop :=
  ∀ (m : Memory) (addr : Word) (n : Nat) (v : BitVec (8 * n)), 1 ≤ n → m.wf = true →
    (0x100000 < addr.toNat + n → memWrite m addr n v = .error .outOfBoundsAccess) ∧
    (addr.toNat + n ≤ 0x100000 → ∃ m', memWrite m addr n v = .ok m' ∧ m'.wf = true ∧
      (∀ k, k < n → m'.byte (addr.toNat + k) = v.extractLsb' (8 * k) 8) ∧
      (∀ q, q < addr.toNat ∨ addr.toNat + n ≤ q → m'.byte q = m.byte q))

/-! ## The loader -/

/-- R92, R93, R105, R108: the load errors in the order of the algorithm, for every parser: flags and types
are compared exactly (segment type 1 flags 5, section type 1 flags 6, the numbers of R101, decision D14,
notes/assumptions/17.md), the FIRST matching section counts (decision D15, 18.md), overflow is tested
before the input's length (decision D16, 19.md); a failure changes the run state and nothing else (R91).
The run state `LoadFailed` is decision D19 (1.md). -/
def Obligations.LoadErrorsFollowTheOrderOfChecks : Prop :=
  ∀ (parse : List Byte → Option ElfObject) (binary : List Byte) (s : State), s.run = .unloaded →
    (parse binary = none → loadWith parse binary s = .next { s with run := .loadFailed .malformedElf }) ∧
    ∀ elf, parse binary = some elf →
      ((∀ g ∈ elf.segments, ¬ (g.type = 1 ∧ g.flags = 5)) →
        loadWith parse binary s = .next { s with run := .loadFailed .noExecutableSegment }) ∧
      ((∃ g ∈ elf.segments, g.type = 1 ∧ g.flags = 5) →
        ((∀ c ∈ elf.sections, ¬ (c.type = 1 ∧ c.flags = 6)) →
          loadWith parse binary s = .next { s with run := .loadFailed .noTextSection }) ∧
        ∀ before sec after, elf.sections = before ++ sec :: after →
          (∀ c ∈ before, ¬ (c.type = 1 ∧ c.flags = 6)) → sec.type = 1 → sec.flags = 6 →
          (0x100000 < sec.virtualAddress + sec.size →
            loadWith parse binary s = .next { s with run := .loadFailed .imageOverflow }) ∧
          (sec.virtualAddress + sec.size ≤ 0x100000 → binary.length < sec.fileOffset + sec.size →
            loadWith parse binary s = .next { s with run := .loadFailed .malformedElf }))

/-- R92, R94, R106, R107: a load that passes the checks of the first matching section copies that
section's bytes unchanged to its address, leaves every other byte zero and every register zero, sets the
pc to the section's address and the run state to `Running`. The origin of the pc is decision D7
(notes/assumptions/16.md), the constants 1, 5, 1, 6 are D14 (17.md), the first match is D15 (18.md), the
check against the input's length D16 (19.md), the zero of `x[1]` to `x[31]` D2 (4.md). -/
def Obligations.LoadCopiesTheSectionAndSetsThePc : Prop :=
  ∀ (parse : List Byte → Option ElfObject) (binary : List Byte) (elf : ElfObject)
    (before after : List Section) (sec : Section), parse binary = some elf →
    (∃ g ∈ elf.segments, g.type = 1 ∧ g.flags = 5) →
    elf.sections = before ++ sec :: after → (∀ c ∈ before, ¬ (c.type = 1 ∧ c.flags = 6)) →
    sec.type = 1 → sec.flags = 6 → sec.virtualAddress + sec.size ≤ 0x100000 →
    sec.fileOffset + sec.size ≤ binary.length →
    ∃ t, loadWith parse binary State.reset = .next t ∧
      (∀ k, k < sec.size → binary[sec.fileOffset + k]? = some (t.mem.byte (sec.virtualAddress + k))) ∧
      (∀ a, a < sec.virtualAddress ∨ sec.virtualAddress + sec.size ≤ a → t.mem.byte a = 0) ∧
      (∀ r, t.reg r = 0) ∧ t.pc.toNat = sec.virtualAddress ∧ t.run = .running

/-- R90, R91, R136: a load is defined in `Unloaded` only (elsewhere the model refuses by name, its choice,
notes/assumptions/20.md); it ends in `Running`, or in `LoadFailed` with the rest of the state untouched;
and it never writes a register. The run states `Unloaded` and `LoadFailed` are decision D19 (1.md). -/
def Obligations.LoadSucceedsOrLeavesNoTrace : Prop :=
  ∀ (binary : List Byte) (s : State),
    (s.run ≠ .unloaded → load binary s = .refused (.loadNotDefined s.run)) ∧
    (s.run = .unloaded → ∃ t, load binary s = .next t ∧ SameRegs s t ∧
      (t.run = .running ∨ ∃ kind, t = { s with run := .loadFailed kind }))

/-- A little-endian integer of `n` bytes at offset `o` of the input; bytes beyond it count as zero. -/
def Sys2Proof.Machine.inputNat (binary : List Byte) (o : Nat) : Nat → Nat
  | 0 => 0
  | n + 1 => (binary.getD o 0).toNat + 256 * Sys2Proof.Machine.inputNat binary (o + 1) n

/-- R96, R97, R102: the parser refuses an input exactly when one of the six listed conditions holds, with
every field at its byte offset for class 32 and class 64. General knowledge, the spec's decision D14
(notes/assumptions/17.md). -/
def Obligations.ElfParseRefusesExactlyTheListedInputs : Prop :=
  ∀ b : List Byte, (∃ elf, elfParse b = some elf) ↔
    16 ≤ b.length ∧ b.take 4 = [0x7F, 0x45, 0x4C, 0x46] ∧ b.getD 5 0 = 1 ∧
    ((b.getD 4 0 = 1 ∧ 52 ≤ b.length ∧
      (inputNat b 44 2 = 0 ∨ 32 ≤ inputNat b 42 2 ∧
        inputNat b 28 4 + inputNat b 44 2 * inputNat b 42 2 ≤ b.length) ∧
      (inputNat b 48 2 = 0 ∨ 40 ≤ inputNat b 46 2 ∧
        inputNat b 32 4 + inputNat b 48 2 * inputNat b 46 2 ≤ b.length)) ∨
     (b.getD 4 0 = 2 ∧ 64 ≤ b.length ∧
      (inputNat b 56 2 = 0 ∨ 56 ≤ inputNat b 54 2 ∧
        inputNat b 32 8 + inputNat b 56 2 * inputNat b 54 2 ≤ b.length) ∧
      (inputNat b 60 2 = 0 ∨ 64 ≤ inputNat b 58 2 ∧
        inputNat b 40 8 + inputNat b 60 2 * inputNat b 58 2 ≤ b.length)))

/-- R98, R99, R100, R103: the segments and sections of an accepted input are its table entries in order,
each field at its byte offset and at its full width. General knowledge, the spec's decision D14
(notes/assumptions/17.md). -/
def Obligations.ElfParseReadsTheTablesInOrder : Prop :=
  ∀ (b : List Byte) (elf : ElfObject), elfParse b = some elf →
    (b.getD 4 0 = 1 →
      elf.segments.length = inputNat b 44 2 ∧ elf.sections.length = inputNat b 48 2 ∧
      (∀ i, i < inputNat b 44 2 → ∀ o, o = inputNat b 28 4 + i * inputNat b 42 2 →
        elf.segments[i]? = some ⟨inputNat b o 4, inputNat b (o + 24) 4⟩) ∧
      (∀ j, j < inputNat b 48 2 → ∀ o, o = inputNat b 32 4 + j * inputNat b 46 2 →
        elf.sections[j]? = some ⟨inputNat b (o + 4) 4, inputNat b (o + 8) 4, inputNat b (o + 12) 4,
          inputNat b (o + 16) 4, inputNat b (o + 20) 4⟩)) ∧
    (b.getD 4 0 = 2 →
      elf.segments.length = inputNat b 56 2 ∧ elf.sections.length = inputNat b 60 2 ∧
      (∀ i, i < inputNat b 56 2 → ∀ o, o = inputNat b 32 8 + i * inputNat b 54 2 →
        elf.segments[i]? = some ⟨inputNat b o 4, inputNat b (o + 4) 4⟩) ∧
      (∀ j, j < inputNat b 60 2 → ∀ o, o = inputNat b 40 8 + j * inputNat b 58 2 →
        elf.sections[j]? = some ⟨inputNat b (o + 4) 4, inputNat b (o + 8) 8, inputNat b (o + 16) 8,
          inputNat b (o + 24) 8, inputNat b (o + 32) 8⟩))

/-! ## The invariant under every operation -/

/-- R21, R33, R85, R125: every operation of the machine's life, a reset, a load of any input, a step, keeps
the invariant from every state that meets it, reachable or not; the step lemma behind
`ReachableStatesMeetTheInvariant`. That a reset is accepted in every run state is DEDUCED
(notes/assumptions/28.md), the canonical form is the model's (6.md). -/
def Obligations.EveryOperationKeepsTheInvariant : Prop :=
  ∀ (e : Event) (s t : State), s.Inv → react e s = .next t → t.Inv
end

