-- ==== Sys2Proof/Laws/Decode.lean ====
section
/-! SUPPORT. The bits of the decoder's immediates and of the encoder's register words. -/

namespace Sys2Proof

/-- Bit `i` of a register number as a word. -/
theorem getLsbD_regWord (r : RegIx) {i : Nat} (hi : i < 32) :
    (regWord r).getLsbD i = r.val.testBit i := by
  rw [regWord, BitVec.getLsbD_ofNat, decide_eq_true hi, Bool.true_and]

/-- A register number has five bits. -/
theorem regWord_bit_high (r : RegIx) {i : Nat} (hi : 5 ≤ i) : (regWord r).getLsbD i = false := by
  have h32 : r.val < 2 ^ 5 := r.isLt
  have h : r.val < 2 ^ i := Nat.lt_of_lt_of_le h32 (Nat.pow_le_pow_right (by omega) hi)
  rw [regWord, BitVec.getLsbD_ofNat, Nat.testBit_lt_two_pow h, Bool.and_false]

theorem getLsbD_addiImm (w : Word) {i : Nat} (hi : i < 32) :
    (addiImm w).getLsbD i = if i < 12 then w.getLsbD (20 + i) else w.getLsbD 31 := by
  rw [addiImm, BitVec.getLsbD_signExtend, decide_eq_true hi, Bool.true_and,
    BitVec.msb_eq_getLsbD_last, BitVec.getLsbD_extractLsb', BitVec.getLsbD_extractLsb']
  split <;> simp [*]

theorem getLsbD_beqzOffset (w : Word) {i : Nat} (hi : i < 32) :
    (beqzOffset w).getLsbD i = if i < 5 then w.getLsbD (7 + i) else w.getLsbD 31 := by
  rw [beqzOffset, BitVec.getLsbD_signExtend, decide_eq_true hi, Bool.true_and,
    BitVec.msb_eq_getLsbD_last, BitVec.getLsbD_append, BitVec.getLsbD_append,
    BitVec.getLsbD_extractLsb', BitVec.getLsbD_extractLsb', BitVec.getLsbD_extractLsb',
    BitVec.getLsbD_extractLsb']
  by_cases h5 : i < 5
  · have h6 : i < 1 + 5 := by omega
    simp [h5, h6]
  · by_cases h6 : i < 1 + 5
    · obtain rfl : i = 5 := by omega
      simp
    · simp [h5, h6]

theorem getLsbD_jalOffset (w : Word) {i : Nat} (hi : i < 32) :
    (jalOffset w).getLsbD i = if i < 10 then w.getLsbD (21 + i) else w.getLsbD 31 := by
  rw [jalOffset, BitVec.getLsbD_signExtend, decide_eq_true hi, Bool.true_and,
    BitVec.msb_eq_getLsbD_last, BitVec.getLsbD_append, BitVec.getLsbD_append,
    BitVec.getLsbD_extractLsb', BitVec.getLsbD_extractLsb', BitVec.getLsbD_extractLsb',
    BitVec.getLsbD_extractLsb']
  by_cases h5 : i < 10
  · have h6 : i < 1 + 10 := by omega
    simp [h5, h6]
  · by_cases h6 : i < 1 + 10
    · obtain rfl : i = 10 := by omega
      simp
    · simp [h5, h6]

theorem getLsbD_sdImm (w : Word) {i : Nat} (hi : i < 32) :
    (sdImm w).getLsbD i =
      if i < 5 then w.getLsbD (7 + i) else if i < 12 then w.getLsbD (20 + i) else false := by
  rw [sdImm, BitVec.getLsbD_setWidth, decide_eq_true hi, Bool.true_and, BitVec.getLsbD_append,
    BitVec.getLsbD_extractLsb', BitVec.getLsbD_extractLsb']
  by_cases h5 : i < 5
  · simp [h5]
  · by_cases h6 : i < 12
    · have e : 25 + (i - 5) = 20 + i := by omega
      have h7 : i - 5 < 7 := by omega
      simp [h5, h6, e, h7]
    · have h7 : ¬ i - 5 < 7 := by omega
      simp [h5, h6, h7]

end Sys2Proof
end

