-- ==== Sys2Proof/Laws/State.lean ====
section
/-! SUPPORT. One small lemma per state field per update, and the register file's read-after-write. -/

namespace Sys2Proof.Machine

@[simp] theorem memSize_eq : Config.memSize = 1048576 := rfl
@[simp] theorem unlistedByte_eq : Config.unlistedByte = 0 := rfl

@[simp] theorem setReg_mem (s : State) (i : RegIx) (v : Word) : (s.setReg i v).mem = s.mem := rfl
@[simp] theorem setReg_pc (s : State) (i : RegIx) (v : Word) : (s.setReg i v).pc = s.pc := rfl
@[simp] theorem setReg_run (s : State) (i : RegIx) (v : Word) : (s.setReg i v).run = s.run := rfl

@[simp] theorem setPc_mem (s : State) (v : Word) : (s.setPc v).mem = s.mem := rfl
@[simp] theorem setPc_x (s : State) (v : Word) : (s.setPc v).x = s.x := rfl
@[simp] theorem setPc_pc (s : State) (v : Word) : (s.setPc v).pc = v := rfl
@[simp] theorem setPc_run (s : State) (v : Word) : (s.setPc v).run = s.run := rfl
@[simp] theorem setPc_reg (s : State) (v : Word) (i : RegIx) : (s.setPc v).reg i = s.reg i := rfl

@[simp] theorem advance_mem (s : State) : s.advance.mem = s.mem := rfl
@[simp] theorem advance_x (s : State) : s.advance.x = s.x := rfl
@[simp] theorem advance_pc (s : State) : s.advance.pc = s.pc + 4 := rfl
@[simp] theorem advance_run (s : State) : s.advance.run = s.run := rfl
@[simp] theorem advance_reg (s : State) (i : RegIx) : s.advance.reg i = s.reg i := rfl

@[simp] theorem raise_mem (s : State) (k : FaultKind) : (s.raise k).mem = s.mem := rfl
@[simp] theorem raise_x (s : State) (k : FaultKind) : (s.raise k).x = s.x := rfl
@[simp] theorem raise_pc (s : State) (k : FaultKind) : (s.raise k).pc = s.pc := rfl
@[simp] theorem raise_run (s : State) (k : FaultKind) : (s.raise k).run = .fault k := rfl
@[simp] theorem raise_reg (s : State) (k : FaultKind) (i : RegIx) : (s.raise k).reg i = s.reg i := rfl

@[simp] theorem halt_mem (s : State) (v : Word) : (s.halt v).mem = s.mem := rfl
@[simp] theorem halt_x (s : State) (v : Word) : (s.halt v).x = s.x := rfl
@[simp] theorem halt_pc (s : State) (v : Word) : (s.halt v).pc = s.pc := rfl
@[simp] theorem halt_run (s : State) (v : Word) : (s.halt v).run = .halted v := rfl
@[simp] theorem halt_reg (s : State) (v : Word) (i : RegIx) : (s.halt v).reg i = s.reg i := rfl

@[simp] theorem loadSection_x (bs : List Byte) (sec : Section) (s : State) :
    (loadSection bs sec s).x = s.x := rfl
@[simp] theorem loadSection_pc (bs : List Byte) (sec : Section) (s : State) :
    (loadSection bs sec s).pc = BitVec.ofNat 32 sec.virtualAddress := rfl
@[simp] theorem loadSection_run (bs : List Byte) (sec : Section) (s : State) :
    (loadSection bs sec s).run = .running := rfl

@[simp] theorem reset_mem : State.reset.mem = [] := rfl
@[simp] theorem reset_pc : State.reset.pc = 0 := rfl
@[simp] theorem reset_run : State.reset.run = .unloaded := rfl

@[simp] theorem reset_reg (i : RegIx) : State.reset.reg i = 0 := by
  simp [State.reg, State.reset]

/-- Reading the register just written gives the value, register 0 too (spec R12). -/
@[simp] theorem setReg_reg_same (s : State) (i : RegIx) (v : Word) : (s.setReg i v).reg i = v := by
  simp [State.reg, State.setReg]

/-- Writing one register leaves every other one alone. -/
theorem setReg_reg_other (s : State) {i j : RegIx} (v : Word) (h : j ≠ i) :
    (s.setReg i v).reg j = s.reg j := by
  have h' : i.val ≠ j.val := fun e => h (Fin.ext e.symm)
  simp [State.reg, State.setReg, h']

/-- A computed index below 32 reads that register. -/
theorem regAt_of_lt (s : State) {n : Nat} (h : n < 32) : s.regAt n = .ok (s.reg ⟨n, h⟩) := by
  simp [State.regAt, State.reg, h]

/-- Index 32 and beyond does not exist (spec R14). -/
theorem regAt_of_ge (s : State) {n : Nat} (h : 32 ≤ n) :
    s.regAt n = .error .registerIndexOutOfRange := by
  simp [State.regAt, Nat.not_lt.mpr h]

end Sys2Proof.Machine
end

