-- ==== Sys2Proof/Laws/Memory.lean ====
section
/-! SUPPORT. The laws of the memory image: read after write, every other byte unchanged, and the
canonical form kept by every operation. -/

namespace Sys2Proof.Machine

/-! ## One byte -/

@[simp] theorem byte_nil (a : Nat) : Memory.byte [] a = 0 := rfl

theorem byte_cons_cell (a : Nat) (b : Byte) (m : Memory) (q : Nat) :
    Memory.byte ((a, b) :: m) q = if q = a then b else m.byte q := rfl

/-- Below the first address of a canonical tail every byte is unlisted. -/
theorem byte_below {lo : Nat} {m : Memory} (h : Memory.wfFrom lo m = true) {q : Nat} (hq : q < lo) :
    m.byte q = 0 := by
  induction m generalizing lo with
  | nil => rfl
  | cons c m ih =>
    obtain ⟨a, b⟩ := c
    simp only [Memory.wfFrom, Bool.and_eq_true, decide_eq_true_eq] at h
    rw [byte_cons_cell, if_neg (by omega)]
    exact ih h.2 (by omega)

/-- A weaker lower bound is kept. -/
theorem wfFrom_mono {lo lo' : Nat} {m : Memory} (h : Memory.wfFrom lo m = true) (hle : lo' ≤ lo) :
    Memory.wfFrom lo' m = true := by
  cases m with
  | nil => rfl
  | cons c m =>
    simp only [Memory.wfFrom, Bool.and_eq_true, decide_eq_true_eq] at h ⊢
    exact ⟨⟨⟨by omega, h.1.1.2⟩, h.1.2⟩, h.2⟩

/-- What a cell put in front reads as. -/
theorem byte_cons {a : Nat} {b : Byte} {m : Memory} (hm : m.byte a = 0) (q : Nat) :
    (Memory.cons a b m).byte q = if q = a then b else m.byte q := by
  by_cases hb : b = 0
  · by_cases hq : q = a
    · subst hq; simp [Memory.cons, hb, hm]
    · simp [Memory.cons, hb, hq]
  · have hu : b ≠ Config.unlistedByte := hb
    simp only [Memory.cons, if_neg hu, byte_cons_cell]

/-- Read after write on a canonical image (spec R33). -/
theorem byte_poke {lo : Nat} {m : Memory} (h : Memory.wfFrom lo m = true) (a : Nat) (b : Byte)
    (q : Nat) : (m.poke a b).byte q = if q = a then b else m.byte q := by
  induction m generalizing lo with
  | nil => exact byte_cons rfl q
  | cons c m ih =>
    obtain ⟨a', c⟩ := c
    have h' := h
    simp only [Memory.wfFrom, Bool.and_eq_true, decide_eq_true_eq] at h'
    obtain ⟨-, htail⟩ := h'
    rw [Memory.poke]
    split
    · next hlt =>
      refine byte_cons ?_ q
      rw [byte_cons_cell, if_neg (by omega)]
      exact byte_below htail (by omega)
    · split
      · next _ heq =>
        subst heq
        rw [byte_cons (byte_below htail (by omega)), byte_cons_cell]
        by_cases hq : q = a <;> simp [hq]
      · next hlt hne =>
        rw [byte_cons_cell, byte_cons_cell, ih htail]
        by_cases hq : q = a'
        · subst hq; simp [Ne.symm hne]
        · simp [hq]

/-! ## The canonical form is kept -/

theorem wfFrom_cons {lo a : Nat} {b : Byte} {m : Memory} (hlo : lo ≤ a) (ha : a < Config.memSize)
    (hm : Memory.wfFrom (a + 1) m = true) : Memory.wfFrom lo (Memory.cons a b m) = true := by
  by_cases hb : b = 0
  · simpa [Memory.cons, hb] using wfFrom_mono hm (by omega)
  · have hu : b ≠ Config.unlistedByte := hb
    simp only [Memory.cons, if_neg hu, Memory.wfFrom, Bool.and_eq_true, decide_eq_true_eq]
    exact ⟨⟨⟨hlo, ha⟩, hu⟩, hm⟩

theorem wfFrom_poke {lo : Nat} {m : Memory} (h : Memory.wfFrom lo m = true) {a : Nat} (b : Byte)
    (hlo : lo ≤ a) (ha : a < Config.memSize) : Memory.wfFrom lo (m.poke a b) = true := by
  induction m generalizing lo with
  | nil => exact wfFrom_cons hlo ha rfl
  | cons c m ih =>
    obtain ⟨a', c⟩ := c
    have h' := h
    simp only [Memory.wfFrom, Bool.and_eq_true, decide_eq_true_eq] at h'
    obtain ⟨⟨⟨h1, h2⟩, h3⟩, htail⟩ := h'
    rw [Memory.poke]
    split
    · next hlt =>
      refine wfFrom_cons hlo ha ?_
      simp only [Memory.wfFrom, Bool.and_eq_true, decide_eq_true_eq]
      exact ⟨⟨⟨by omega, h2⟩, h3⟩, htail⟩
    · split
      · next _ heq => subst heq; exact wfFrom_cons hlo ha htail
      · next hlt hne =>
        simp only [Memory.wfFrom, Bool.and_eq_true, decide_eq_true_eq]
        exact ⟨⟨⟨h1, h2⟩, h3⟩, ih htail (by omega)⟩

/-- Writing a byte of the image keeps the canonical form. -/
theorem wf_poke {m : Memory} (h : m.wf = true) {a : Nat} (b : Byte) (ha : a < Config.memSize) :
    (m.poke a b).wf = true := wfFrom_poke h b (Nat.zero_le a) ha

/-- Read after write of one byte. -/
theorem wf_byte_poke {m : Memory} (h : m.wf = true) (a : Nat) (b : Byte) (q : Nat) :
    (m.poke a b).byte q = if q = a then b else m.byte q := byte_poke h a b q

/-! ## Multi-byte stores and reads -/

/-- Storing bytes within the image keeps the canonical form. -/
theorem wf_storeBytes {m : Memory} (h : m.wf = true) {a wd : Nat} (v : BitVec wd) {n : Nat}
    (hn : a + n ≤ Config.memSize) : (m.storeBytes a v n).wf = true := by
  induction n with
  | zero => exact h
  | succ n ih => exact wf_poke (ih (by omega)) _ (by omega)

/-- What every byte reads as after a store: byte `k` of the value at `a + k`, all else unchanged. -/
theorem byte_storeBytes {m : Memory} (h : m.wf = true) {a wd : Nat} (v : BitVec wd) {n : Nat}
    (hn : a + n ≤ Config.memSize) (q : Nat) :
    (m.storeBytes a v n).byte q =
      if a ≤ q ∧ q < a + n then v.extractLsb' (8 * (q - a)) 8 else m.byte q := by
  induction n with
  | zero => rw [if_neg (by omega)]; rfl
  | succ n ih =>
    rw [Memory.storeBytes, wf_byte_poke (wf_storeBytes h v (by omega)), ih (by omega)]
    by_cases hq : q = a + n
    · subst hq; simp
    · by_cases hr : a ≤ q ∧ q < a + n
      · rw [if_neg hq, if_pos hr, if_pos (by omega)]
      · rw [if_neg hq, if_neg hr, if_neg (by omega)]

/-- Bit `i` of an assembled value is bit `i % 8` of byte `i / 8`. -/
theorem getLsbD_assemble (m : Memory) (a n i : Nat) (hi : i < 8 * n) :
    (m.assemble a n).getLsbD i = (m.byte (a + i / 8)).getLsbD (i % 8) := by
  induction n with
  | zero => omega
  | succ n ih =>
    rw [Memory.assemble, BitVec.getLsbD_cast, BitVec.getLsbD_append]
    split
    · next h => exact ih h
    · next h =>
      have h1 : i / 8 = n := by omega
      have h2 : i - 8 * n = i % 8 := by omega
      rw [h1, h2]

/-- Byte `k` of an assembled value is the byte at `a + k` (spec R28). -/
theorem byte_assemble (m : Memory) (a n k : Nat) (hk : k < n) :
    (m.assemble a n).extractLsb' (8 * k) 8 = m.byte (a + k) := by
  ext i hi
  have h1 : (8 * k + i) / 8 = k := by omega
  have h2 : (8 * k + i) % 8 = i := by omega
  rw [BitVec.getElem_extractLsb', getLsbD_assemble _ _ _ _ (by omega), h1, h2]
  simp [BitVec.getLsbD_eq_getElem hi]

/-- Two reads that agree on every byte agree. -/
theorem assemble_congr {m m' : Memory} {a a' n : Nat}
    (h : ∀ k, k < n → m.byte (a + k) = m'.byte (a' + k)) : m.assemble a n = m'.assemble a' n := by
  apply BitVec.eq_of_getLsbD_eq
  intro i hi
  rw [getLsbD_assemble _ _ _ _ hi, getLsbD_assemble _ _ _ _ hi, h (i / 8) (by omega)]

/-! ## `MemRead`, `MemWrite` -/

/-- The bounds check of spec R27. -/
@[simp] theorem inRange_iff (addr : Word) (n : Nat) :
    inRange addr n = true ↔ addr.toNat + n ≤ 1048576 := decide_eq_true_iff

theorem inRange_false (addr : Word) (n : Nat) :
    inRange addr n = false ↔ 1048576 < addr.toNat + n := by
  rw [← Bool.not_eq_true, inRange_iff, Nat.not_le]

theorem memRead_ok {m : Memory} {addr : Word} {n : Nat} {v : BitVec (8 * n)}
    (h : memRead m addr n = .ok v) :
    addr.toNat + n ≤ Config.memSize ∧ v = m.assemble addr.toNat n := by
  unfold memRead at h
  split at h
  · next hr => exact ⟨(inRange_iff _ _).mp hr, by simpa using h.symm⟩
  · cases h

theorem memRead_error {m : Memory} {addr : Word} {n : Nat} {k : FaultKind}
    (h : memRead m addr n = .error k) :
    Config.memSize < addr.toNat + n ∧ k = .outOfBoundsAccess := by
  unfold memRead at h
  split at h
  · cases h
  · next hr => exact ⟨by simpa using hr, by simpa using h.symm⟩

theorem memWrite_ok {m m' : Memory} {addr : Word} {n : Nat} {v : BitVec (8 * n)}
    (h : memWrite m addr n v = .ok m') :
    addr.toNat + n ≤ Config.memSize ∧ m' = m.storeBytes addr.toNat v n := by
  unfold memWrite at h
  split at h
  · next hr => exact ⟨(inRange_iff _ _).mp hr, by simpa using h.symm⟩
  · cases h

theorem memWrite_error {m : Memory} {addr : Word} {n : Nat} {v : BitVec (8 * n)} {k : FaultKind}
    (h : memWrite m addr n v = .error k) :
    Config.memSize < addr.toNat + n ∧ k = .outOfBoundsAccess := by
  unfold memWrite at h
  split at h
  · cases h
  · next hr => exact ⟨by simpa using hr, by simpa using h.symm⟩

/-! ## The loader's copy -/

theorem wf_copyBytes {m : Memory} (h : m.wf = true) {a : Nat} {bs : List Byte}
    (hb : a + bs.length ≤ Config.memSize) : (copyBytes m a bs).wf = true := by
  induction bs generalizing m a with
  | nil => exact h
  | cons b bs ih =>
    simp only [List.length_cons] at hb
    exact ih (wf_poke h b (by omega)) (by omega)

/-- What every byte reads as after the copy: the bytes in their order from `a` up, all else unchanged. -/
theorem byte_copyBytes {m : Memory} (h : m.wf = true) {a : Nat} {bs : List Byte}
    (hb : a + bs.length ≤ Config.memSize) (q : Nat) :
    (copyBytes m a bs).byte q =
      if a ≤ q ∧ q < a + bs.length then bs.getD (q - a) 0 else m.byte q := by
  induction bs generalizing m a with
  | nil => rw [if_neg (by simp)]; rfl
  | cons b bs ih =>
    simp only [List.length_cons] at hb
    rw [copyBytes, ih (wf_poke h b (by omega)) (by omega), wf_byte_poke h]
    by_cases hq : q = a
    · subst hq; simp
    · by_cases hr : a + 1 ≤ q ∧ q < a + 1 + bs.length
      · have e : q - a = (q - (a + 1)) + 1 := by omega
        rw [if_pos hr, if_pos (by simp only [List.length_cons]; omega), e, List.getD_cons_succ]
      · rw [if_neg hr, if_neg hq, if_neg (by simp only [List.length_cons]; omega)]

end Sys2Proof.Machine
end

