-- ==== Sys2Proof/Laws/Ops.lean ====
section
/-! SUPPORT. What each shared operation can do, said once: fetch, 4-byte store, SD, the step. -/

namespace Sys2Proof.Machine

/-! ## Fetch -/

theorem fetch_ok {s : State} {w : Word} (h : s.fetch = .ok w) :
    s.pc.toNat + 4 ≤ Config.memSize ∧ w = s.mem.assemble s.pc.toNat 4 := memRead_ok h

theorem fetch_error {s : State} {k : FaultKind} (h : s.fetch = .error k) :
    Config.memSize < s.pc.toNat + 4 ∧ k = .outOfBoundsAccess := memRead_error h

theorem fetch_of_inRange {s : State} (h : s.pc.toNat + 4 ≤ Config.memSize) :
    s.fetch = .ok (s.mem.assemble s.pc.toNat 4) := by
  simp only [State.fetch, memRead]
  rw [if_pos ((inRange_iff _ _).mpr h)]

theorem fetch_of_outOfRange {s : State} (h : Config.memSize < s.pc.toNat + 4) :
    s.fetch = .error .outOfBoundsAccess := by
  simp only [State.fetch, memRead]
  rw [if_neg]
  rw [inRange_iff]
  exact Nat.not_le.mpr h

/-- Byte `k` of the fetched word is the memory byte at `pc + k` (spec R30). -/
theorem fetch_byte {s : State} {w : Word} (h : s.fetch = .ok w) {k : Nat} (hk : k < 4) :
    w.extractLsb' (8 * k) 8 = s.mem.byte (s.pc.toNat + k) := by
  rw [(fetch_ok h).2]
  exact byte_assemble s.mem s.pc.toNat 4 k hk

/-- The fetch depends on the pc and on the 4 bytes from it alone. -/
theorem fetch_congr {s t : State} (hpc : s.pc = t.pc)
    (h : ∀ k, k < 4 → s.mem.byte (s.pc.toNat + k) = t.mem.byte (s.pc.toNat + k)) :
    s.fetch = t.fetch := by
  simp only [State.fetch, memRead, ← hpc, assemble_congr h]

/-! ## A 4-byte store -/

/-- A 4-byte store that succeeds was in range and changes memory only. -/
theorem store4_ok {s t : State} {addr v : Word} (h : s.store4 addr v = .ok t) :
    addr.toNat + 4 ≤ Config.memSize ∧ t = { s with mem := s.mem.storeBytes addr.toNat v 4 } := by
  unfold State.store4 at h
  cases hw : memWrite s.mem addr 4 v with
  | error k => simp [hw, Except.map] at h
  | ok m =>
    obtain ⟨hr, rfl⟩ := memWrite_ok hw
    simp only [hw, Except.map, Except.ok.injEq] at h
    exact ⟨hr, h.symm⟩

/-- A 4-byte store that fails was out of range. -/
theorem store4_error {s : State} {addr v : Word} {k : FaultKind} (h : s.store4 addr v = .error k) :
    Config.memSize < addr.toNat + 4 ∧ k = .outOfBoundsAccess := by
  unfold State.store4 at h
  cases hw : memWrite s.mem addr 4 v with
  | error k' =>
    simp only [hw, Except.map, Except.error.injEq] at h
    exact h ▸ memWrite_error hw
  | ok m => simp [hw, Except.map] at h

theorem store4_of_inRange {s : State} {addr : Word} (v : Word) (h : addr.toNat + 4 ≤ Config.memSize) :
    s.store4 addr v = .ok { s with mem := s.mem.storeBytes addr.toNat v 4 } := by
  simp only [State.store4, memWrite]
  rw [if_pos ((inRange_iff _ _).mpr h)]
  rfl

theorem store4_of_outOfRange {s : State} {addr : Word} (v : Word)
    (h : Config.memSize < addr.toNat + 4) : s.store4 addr v = .error .outOfBoundsAccess := by
  simp only [State.store4, memWrite]
  rw [if_neg]
  · rfl
  · rw [inRange_iff]
    exact Nat.not_le.mpr h

/-! ## The execution of one instruction -/

/-- Everything SD can do: the index fault, the first write's fault, the second write's fault with the
first word in place, or both words stored. -/
theorem execSd_cases {rs1 rs2 : RegIx} {imm : Word} {s : State} :
    (s.sdLow rs2 = .error .registerIndexOutOfRange ∧ rs2.val = 31 ∧
      execSd rs1 rs2 imm s = .next (s.raise .registerIndexOutOfRange)) ∨
    (∃ lo, s.sdLow rs2 = .ok lo ∧ rs2.val < 31 ∧
      ((Config.memSize < (s.sdAddress rs1 imm).toNat + 4 ∧
          execSd rs1 rs2 imm s = .next (s.raise .outOfBoundsAccess)) ∨
       ((s.sdAddress rs1 imm).toNat + 4 ≤ Config.memSize ∧
          Config.memSize < (s.sdAddress rs1 imm + 4).toNat + 4 ∧
          execSd rs1 rs2 imm s = .next
            (State.raise { s with mem := s.mem.storeBytes (s.sdAddress rs1 imm).toNat lo 4 }
              .outOfBoundsAccess)) ∨
       ((s.sdAddress rs1 imm).toNat + 4 ≤ Config.memSize ∧
          (s.sdAddress rs1 imm + 4).toNat + 4 ≤ Config.memSize ∧
          execSd rs1 rs2 imm s = .next
            { s with
              mem := (s.mem.storeBytes (s.sdAddress rs1 imm).toNat lo 4).storeBytes
                (s.sdAddress rs1 imm + 4).toNat (s.sdHigh rs2) 4 }))) := by
  by_cases hr : rs2.val = 31
  · have h : s.sdLow rs2 = .error .registerIndexOutOfRange := regAt_of_ge s (by omega)
    exact .inl ⟨h, hr, by simp [execSd, h]⟩
  · have hlt : rs2.val + 1 < 32 := by omega
    have h : s.sdLow rs2 = .ok (s.reg ⟨rs2.val + 1, hlt⟩) := regAt_of_lt s hlt
    refine .inr ⟨_, h, by omega, ?_⟩
    by_cases h1 : (s.sdAddress rs1 imm).toNat + 4 ≤ Config.memSize
    · have e1 := store4_of_inRange (s := s) (s.reg ⟨rs2.val + 1, hlt⟩) h1
      by_cases h2 : (s.sdAddress rs1 imm + 4).toNat + 4 ≤ Config.memSize
      · refine .inr (.inr ⟨h1, h2, ?_⟩)
        simp only [execSd, h, e1, store4_of_inRange _ h2]
      · refine .inr (.inl ⟨h1, by omega, ?_⟩)
        simp only [execSd, h, e1, store4_of_outOfRange _ (Nat.lt_of_not_le h2)]
    · refine .inl ⟨by omega, ?_⟩
      simp only [execSd, h, store4_of_outOfRange _ (Nat.lt_of_not_le h1)]

/-- After a first write in range, `addr + 4` does not wrap (spec R81). -/
theorem sdSecond_toNat {addr : Word} (h : addr.toNat + 4 ≤ Config.memSize) :
    (addr + 4).toNat = addr.toNat + 4 := by
  have : addr.toNat + 4 ≤ 1048576 := h
  rw [BitVec.toNat_add]
  simp only [BitVec.reduceToNat] at *
  omega

/-! ## The step -/

/-- Everything a step can do: stop outside `Running`, a fetch fault, an unknown word, an instruction. -/
theorem step_cases (s : State) :
    (s.run ≠ .running ∧ step s = .fault (.notRunning s.run)) ∨
    (s.run = .running ∧ s.fetch = .error .outOfBoundsAccess ∧ Config.memSize < s.pc.toNat + 4 ∧
      step s = .next (s.raise .outOfBoundsAccess)) ∨
    (s.run = .running ∧ ∃ w, s.fetch = .ok w ∧
      ((∃ why, decode w = .error why ∧ step s = .next (s.advance.raise .unknownInstruction)) ∨
       (∃ i, decode w = .ok i ∧ step s = exec i s.advance))) := by
  by_cases hrun : s.run = .running
  · refine .inr ?_
    have hstep : step s = cycle s := by simp only [step, engineStep, hrun]
    cases hf : s.fetch with
    | error k =>
      obtain ⟨hr, rfl⟩ := fetch_error hf
      exact .inl ⟨hrun, rfl, hr, by rw [hstep]; simp only [cycle, hf]⟩
    | ok w =>
      refine .inr ⟨hrun, w, rfl, ?_⟩
      cases hd : decode w with
      | error why =>
        exact .inl ⟨why, rfl, by rw [hstep]; simp only [cycle, hf, hd, execDecoded, execInvalid]⟩
      | ok i => exact .inr ⟨i, rfl, by rw [hstep]; simp only [cycle, hf, hd, execDecoded]⟩
  · refine .inl ⟨hrun, ?_⟩
    simp only [step, engineStep]

/-! ## The loader -/

/-- A section the loader selects passed every check (spec R92). -/
theorem selectSection_ok {parse : List Byte → Option ElfObject} {binary : List Byte} {sec : Section}
    (h : selectSection parse binary = .ok sec) :
    ∃ elf seg, parse binary = some elf ∧ elf.segments.find? isExecSegment = some seg ∧
      elf.sections.find? isTextSection = some sec ∧
      sec.virtualAddress + sec.size ≤ Config.memSize ∧
      sec.fileOffset + sec.size ≤ binary.length := by
  unfold selectSection at h
  split at h
  · cases h
  · next elf hp =>
    split at h
    · cases h
    · next seg hs =>
      split at h
      · cases h
      · next sec' ht =>
        split at h
        · cases h
        · next ho =>
          split at h
          · cases h
          · next hl =>
            obtain rfl : sec' = sec := by simpa using h
            exact ⟨elf, seg, hp, hs, ht, Nat.not_lt.mp ho, Nat.not_lt.mp hl⟩

/-- Everything a load can do. -/
theorem loadWith_cases (parse : List Byte → Option ElfObject) (binary : List Byte) (s : State) :
    (s.run ≠ .unloaded ∧ loadWith parse binary s = .refused (.loadNotDefined s.run)) ∨
    (s.run = .unloaded ∧ ∃ kind, selectSection parse binary = .error kind ∧
      loadWith parse binary s = .next { s with run := .loadFailed kind }) ∨
    (s.run = .unloaded ∧ ∃ sec, selectSection parse binary = .ok sec ∧
      loadWith parse binary s = .next (loadSection binary sec s)) := by
  by_cases hrun : s.run = .unloaded
  · refine .inr ?_
    cases hsel : selectSection parse binary with
    | error kind => exact .inl ⟨hrun, kind, rfl, by simp only [loadWith, hrun, hsel]⟩
    | ok sec => exact .inr ⟨hrun, sec, rfl, by simp only [loadWith, hrun, hsel]⟩
  · refine .inl ⟨hrun, ?_⟩
    simp only [loadWith]

/-- The bytes of a section that lies within the input are as many as its size. -/
theorem length_sectionBytes {binary : List Byte} {sec : Section}
    (h : sec.fileOffset + sec.size ≤ binary.length) :
    (sectionBytes binary sec).length = sec.size := by
  simp only [sectionBytes, List.length_take, List.length_drop]
  omega

end Sys2Proof.Machine
end

