-- ==== Sys2Proof/Laws/PerInstr.lean ====
section
/-! SUPPORT. Facts about every instruction as syntax, one lemma per constructor: the word `encode`
gives carries its table row's key bits. -/

namespace Sys2Proof.Laws.RowBits

/-- The encoded word selects the instruction's own table row (spec R50, R57). -/
def Statement (i : Instr) : Prop := encode i &&& i.row.mask = i.row.pattern

theorem add (rd rs1 rs2 : RegIx) : Statement (.add rd rs1 rs2) := by
  simp only [Statement, encode, Instr.row]
  ext i hi
  interval_cases i <;> simp [regWord_bit_high, ← BitVec.getLsbD_eq_getElem]

theorem addi (rd rs1 : RegIx) (imm : Word) : Statement (.addi rd rs1 imm) := by
  simp only [Statement, encode, Instr.row]
  ext i hi
  interval_cases i <;> simp [regWord_bit_high, ← BitVec.getLsbD_eq_getElem]

theorem mv (rd rs1 : RegIx) : Statement (.mv rd rs1) := by
  simp only [Statement, encode, Instr.row]
  ext i hi
  interval_cases i <;> simp [regWord_bit_high, ← BitVec.getLsbD_eq_getElem]

theorem beqz (rs1 : RegIx) (off : Word) : Statement (.beqz rs1 off) := by
  simp only [Statement, encode, Instr.row]
  ext i hi
  interval_cases i <;> simp [regWord_bit_high, ← BitVec.getLsbD_eq_getElem]

theorem jal (rd : RegIx) (hoff : Word) : Statement (.jal rd hoff) := by
  simp only [Statement, encode, Instr.row]
  ext i hi
  interval_cases i <;> simp [regWord_bit_high, ← BitVec.getLsbD_eq_getElem]

theorem sd (rs1 rs2 : RegIx) (imm : Word) : Statement (.sd rs1 rs2 imm) := by
  simp only [Statement, encode, Instr.row]
  ext i hi
  interval_cases i <;> simp [regWord_bit_high, ← BitVec.getLsbD_eq_getElem]

theorem ecall : Statement .ecall := by
  rfl

end Sys2Proof.Laws.RowBits
end

