-- ==== Sys2Proof/Laws/Run.lean ====
section
/-! SUPPORT. How a run of several steps unfolds: `Host.Core.run` at this machine, one step at a time. -/

namespace Sys2Proof.Machine

theorem core_run_zero (s : State) : Sys2Proof.core.run 0 s = .next s := rfl

theorem host_run_succ (M : Host.Core) (k : Nat) (s : M.State) :
    M.run (k + 1) s = match M.step s with
      | .next t => M.run k t
      | .fault r => .fault r
      | .refused r => .refused r := rfl

/-- A run whose first step answers `next t` is the run of one step less from `t`. -/
theorem core_run_next {s t : State} (k : Nat) (h : step s = .next t) :
    Sys2Proof.core.run (k + 1) s = Sys2Proof.core.run k t := by
  have h' : Sys2Proof.core.step s = .next t := h
  have e := host_run_succ Sys2Proof.core k s
  rw [h'] at e
  exact e

/-- A run whose first step stops is that stop. -/
theorem core_run_fault {s : State} {r : Fault} (k : Nat) (h : step s = .fault r) :
    Sys2Proof.core.run (k + 1) s = .fault r := by
  have h' : Sys2Proof.core.step s = .fault r := h
  have e := host_run_succ Sys2Proof.core k s
  rw [h'] at e
  exact e

end Sys2Proof.Machine
end

