-- ==== Sys2Proof/Tests/Slice0.lean ====
section
/-! SUPPORT. Small tests. Expected results are the vectors of spec/95_test_vectors.md, named by their
number there, or worked examples of the cited rules; none is the model's own answer pasted back. -/

namespace Sys2Proof.Tests
open Sys2Proof.Machine

/-! ## Well-formedness: each range check refuses a value outside it (R56) -/

theorem test_wf_addi_refuses_2048 : Instr.wf (.addi 1 1 2048) = false := by decide
theorem test_wf_addi_refuses_below : Instr.wf (.addi 1 1 (-2049)) = false := by decide
theorem test_wf_beqz_refuses_32 : Instr.wf (.beqz 1 32) = false := by decide
theorem test_wf_beqz_refuses_below : Instr.wf (.beqz 1 (-33)) = false := by decide
theorem test_wf_jal_refuses_1024 : Instr.wf (.jal 1 1024) = false := by decide
theorem test_wf_jal_refuses_below : Instr.wf (.jal 1 (-1025)) = false := by decide
theorem test_wf_sd_refuses_4096 : Instr.wf (.sd 5 8 4096) = false := by decide
theorem test_wf_accepts_the_bounds :
    (Instr.wf (.addi 1 1 2047) && Instr.wf (.addi 1 1 (-2048)) && Instr.wf (.beqz 1 31)
      && Instr.wf (.beqz 1 (-32)) && Instr.wf (.jal 1 1023) && Instr.wf (.jal 1 (-1024))
      && Instr.wf (.sd 5 31 4095) && Instr.wf (.add 0 0 0) && Instr.wf (.mv 0 0)
      && Instr.wf .ecall) = true := by decide

/-! ## Decoding: words written out bit by bit from the layouts of R43 -/

/-- ADD x31, x31, x31 with every ignored bit set. -/
theorem test_decode_add : decode 0b1111111_11111_11111_111_11111_0110011 = .ok (.add 31 31 31) := by
  decide
/-- ADDI x1, x1, -2048: only bit 31 of the immediate field set. -/
theorem test_decode_addi :
    decode 0b100000000000_00001_000_00001_0010011 = .ok (.addi 1 1 (-2048)) := by decide
/-- MV x6, x5 with the ignored `w[31:20]` set. -/
theorem test_decode_mv : decode 0b111111111111_00101_001_00110_0010011 = .ok (.mv 6 5) := by decide
/-- BEQZ x1, -4: `{w[31], w[11:7]} = 111100`. -/
theorem test_decode_beqz :
    decode 0b1_00000000000_00001_000_11100_1100011 = .ok (.beqz 1 (-4)) := by decide
/-- JAL x1, -6: `{w[31], w[30:21]} = 11111111010`, the ignored `w[20:12]` set. -/
theorem test_decode_jal : decode 0b1_1111111010_111111111_00001_1101111 = .ok (.jal 1 (-6)) := by
  decide
/-- SD x8, 0x7FF(x5): `w[31:25] = 0x3F`, `w[11:7] = 0x1F`, the ignored `w[14:12]` set. -/
theorem test_decode_sd :
    decode 0b0111111_01000_00101_111_11111_0100011 = .ok (.sd 5 8 0x7FF) := by decide
/-- ECALL with every ignored bit set. -/
theorem test_decode_ecall : decode 0b1111111111111111111111111_1110011 = .ok .ecall := by decide
/-- Opcode 0x13 with `w[14:12] = 2` (section 3). -/
theorem test_decode_funct3_2 : decode 0x0002A313 = .error (.unknownFunct3 2) := by decide
/-- `w[6:0] = 0x7F` (section 3). -/
theorem test_decode_all_ones : decode 0xFFFFFFFF = .error (.unknownOpcode 0x7F) := by decide
/-- The bytes `13 05 50 00` of L1 are ADDI x10, x0, 5 and leave the rest. -/
theorem test_decode_bytes :
    decodeBytes [0x13, 0x05, 0x50, 0x00, 0x73] = .ok (.addi 10 0 5, [0x73]) := by decide
theorem test_decode_truncated : decodeBytes [0x13, 0x05, 0x50] = .error .truncated := by decide

/-! ## Encoding: the canonical words of the vectors (R57) -/

theorem test_encode_words :
    [encode (.add 3 1 2), encode (.addi 1 1 (-1)), encode (.mv 6 5), encode (.beqz 1 (-8)),
      encode (.jal 1 (-6)), encode (.sd 5 8 0xFFF), encode .ecall]
    = [0x002081B3, 0xFFF08093, 0x00029313, 0x80008C63, 0xFF4000EF, 0xFE828FA3, 0x00000073] := by
  decide

/-! ## Single steps -/

/-- A running machine at `pc` with the listed registers, every other register and byte zero. -/
def machineAt (pc : Word) (regs : List (RegIx × Word)) : State :=
  regs.foldl (fun s p => s.setReg p.1 p.2) { State.reset with pc := pc, run := .running }

/-- The vectors' machine: pc 0x1000, the word `w` placed there. -/
def machine (regs : List (RegIx × Word)) (w : Nat) : State :=
  (machineAt 0x1000 regs).withFetchWord 32 w

/-- The next state of an outcome, if it is one. -/
def nextOf : Host.Outcome State Fault Refusal → Option State
  | .next t => some t
  | .fault _ => none
  | .refused _ => none

/-- Run state, pc and one register after one step of `s`. -/
def after (s : State) (r : RegIx) : Option (RunState × Word × Word) :=
  (nextOf (step s)).map fun t => (t.run, t.pc, t.reg r)

/-- The `n` bytes from `a` up after one step of `s`. -/
def bytesAfter (s : State) (a n : Nat) : Option (RunState × List Byte) :=
  (nextOf (step s)).map fun t => (t.run, (List.range n).map fun k => t.mem.byte (a + k))

/-- S1: the sum wraps. -/
theorem test_add_wraps :
    after (machine [(1, 0xFFFFFFFF), (2, 1)] 0x002081B3) 3 = some (.running, 0x1004, 0) := by decide
/-- A3: both sources are the destination. -/
theorem test_add_reads_before_write :
    after (machine [(5, 0x40000001)] 0x005282B3) 5 = some (.running, 0x1004, 0x80000002) := by decide
/-- I5: the largest immediate, signed overflow. -/
theorem test_addi_wraps :
    after (machine [(1, 0x7FFFFFFF)] 0x7FF08093) 1 = some (.running, 0x1004, 0x800007FE) := by decide
/-- I6: register 0 is written. -/
theorem test_addi_writes_register0 :
    after (machine [] 0x00700013) 0 = some (.running, 0x1004, 7) := by decide
/-- M2: the immediate field is ignored. -/
theorem test_mv_copies :
    after (machine [(5, 0x80000001)] 0xFFF29313) 6 = some (.running, 0x1004, 0x80000001) := by decide
/-- M4: register 0 is read as it stands. -/
theorem test_mv_reads_register0 :
    after (machine [(0, 5), (7, 9)] 0x00001393) 7 = some (.running, 0x1004, 5) := by decide
/-- B9: the most negative offset, from the advanced pc. -/
theorem test_beqz_taken : after (machine [] 0x80008063) 1 = some (.running, 0x0FE4, 0) := by decide
/-- B1: only zero branches. -/
theorem test_beqz_not_taken :
    after (machine [(1, 0x80000000)] 0x00008463) 1 = some (.running, 0x1004, 0x80000000) := by decide
/-- S4: link `A + 8`, target `A + 16`. -/
theorem test_jal_forward : after (machine [] 0x010000EF) 1 = some (.running, 0x1010, 0x1008) := by
  decide
/-- J10: the target wraps below address 0. -/
theorem test_jal_wraps :
    after ((machineAt 0 []).withFetchWord 32 0x800000EF) 1 = some (.running, 0xFFFFF800, 8) := by
  decide
/-- S5: `x9` at the lower address, `x8` above it, little-endian. -/
theorem test_sd_order :
    bytesAfter (machine [(5, 0x200), (8, 0xFFFFFFFF), (9, 0x123)] 0x00828823) 0x20F 10
      = some (.running, [0, 0x23, 0x01, 0, 0, 0xFF, 0xFF, 0xFF, 0xFF, 0]) := by decide
/-- T10: the second write faults and the first word stays. -/
theorem test_sd_partial :
    bytesAfter (machine [(5, 0xFFFF9), (8, 0x11223344), (9, 0x55667788)] 0x00828023) 0xFFFF9 7
      = some (.fault .outOfBoundsAccess, [0x88, 0x77, 0x66, 0x55, 0, 0, 0]) := by decide
/-- T7: the index fault comes before the address check. -/
theorem test_sd_register32 :
    after (machine [(31, 1), (5, 0x100000)] 0x01F28023) 31
      = some (.fault .registerIndexOutOfRange, 0x1004, 1) := by decide
/-- E4: every word with opcode 0x73 halts with register 10. -/
theorem test_ecall : after (machine [(10, 7), (5, 1)] 0x34029073) 5 = some (.halted 7, 0x1004, 1) := by
  decide
/-- S7: an unknown word changes the pc and the run state only. -/
theorem test_unknown_word :
    after (machine [(1, 1)] 0x00000000) 1 = some (.fault .unknownInstruction, 0x1004, 1) := by decide
/-- F2: a fetch past the end leaves the pc. -/
theorem test_fetch_fault :
    after (machineAt 0xFFFFD []) 1 = some (.fault .outOfBoundsAccess, 0xFFFFD, 0) := by decide
/-- F1: the last fetchable address. -/
theorem test_last_fetch :
    after ((machineAt 0xFFFFC []).withFetchWord 32 0x00100093) 1 = some (.running, 0x100000, 1) := by
  decide
/-- F6: a pc that is not a multiple of 4. -/
theorem test_unaligned_fetch :
    after ((machineAt 0x1002 []).withFetchWord 32 0x00500513) 10 = some (.running, 0x1006, 5) := by
  decide

/-! ## The loader: L1, L2 and some of their variations -/

/-- The ELF identification of `cls`, zero-padded to 16 bytes. -/
def ident (cls : Byte) : List Byte := [0x7F, 0x45, 0x4C, 0x46, cls, 1, 1] ++ List.replicate 9 0

/-- L1, the class-32 input of 172 bytes. -/
def elf32 : List Byte :=
  ident 1 ++
  [0x02, 0, 0xF3, 0, 0x01, 0, 0, 0, 0, 0x10, 0, 0, 0x34, 0, 0, 0] ++
  [0x5C, 0, 0, 0, 0, 0, 0, 0, 0x34, 0, 0x20, 0, 0x01, 0, 0x28, 0] ++
  [0x02, 0, 0, 0, 0x01, 0, 0, 0, 0x54, 0, 0, 0, 0, 0x10, 0, 0] ++
  [0, 0x10, 0, 0, 0x08, 0, 0, 0, 0x08, 0, 0, 0, 0x05, 0, 0, 0] ++
  [0x04, 0, 0, 0, 0x13, 0x05, 0x50, 0, 0x73, 0, 0, 0] ++ List.replicate 44 0 ++
  [0x01, 0, 0, 0, 0x06, 0, 0, 0] ++
  [0, 0x10, 0, 0, 0x54, 0, 0, 0, 0x08, 0, 0, 0, 0, 0, 0, 0] ++
  [0, 0, 0, 0, 0x04, 0, 0, 0, 0, 0, 0, 0]

/-- L2, the class-64 input of 256 bytes. -/
def elf64 : List Byte :=
  ident 2 ++
  [0x02, 0, 0xF3, 0, 0x01, 0, 0, 0, 0, 0x10, 0, 0, 0, 0, 0, 0] ++
  [0x40, 0, 0, 0, 0, 0, 0, 0, 0x80, 0, 0, 0, 0, 0, 0, 0] ++
  [0, 0, 0, 0, 0x40, 0, 0x38, 0, 0x01, 0, 0x40, 0, 0x02, 0, 0, 0] ++
  [0x01, 0, 0, 0, 0x05, 0, 0, 0, 0x78, 0, 0, 0, 0, 0, 0, 0] ++
  [0, 0x10, 0, 0, 0, 0, 0, 0, 0, 0x10, 0, 0, 0, 0, 0, 0] ++
  [0x08, 0, 0, 0, 0, 0, 0, 0, 0x08, 0, 0, 0, 0, 0, 0, 0] ++
  [0x04, 0, 0, 0, 0, 0, 0, 0, 0x13, 0x05, 0x50, 0, 0x73, 0, 0, 0] ++ List.replicate 68 0 ++
  [0x01, 0, 0, 0, 0x06, 0, 0, 0, 0, 0, 0, 0] ++
  [0, 0x10, 0, 0, 0, 0, 0, 0, 0x78, 0, 0, 0, 0, 0, 0, 0] ++
  [0x08, 0, 0, 0, 0, 0, 0, 0] ++ List.replicate 8 0 ++
  [0x04, 0, 0, 0, 0, 0, 0, 0] ++ List.replicate 8 0

/-- Run state, pc and memory after loading into the reset machine. -/
def loaded (binary : List Byte) : Option (RunState × Word × Memory) :=
  (nextOf (load binary State.reset)).map fun t => (t.run, t.pc, t.mem)

/-- The loaded bytes of P1, listed where they are not zero. -/
def p1Cells : Memory := [(0x1000, 0x13), (0x1001, 0x05), (0x1002, 0x50), (0x1004, 0x73)]

theorem test_load_class32 : loaded elf32 = some (.running, 0x1000, p1Cells) := by decide +kernel
theorem test_load_class64 : loaded elf64 = some (.running, 0x1000, p1Cells) := by decide +kernel
/-- V11: segment flags 7 are no match. -/
theorem test_load_flags_exact :
    loaded (elf32.set 0x4C 7) = some (.loadFailed .noExecutableSegment, 0, []) := by decide +kernel
/-- V18: section flags 7 are no match. -/
theorem test_load_section_flags_exact :
    loaded (elf32.set 0x8C 7) = some (.loadFailed .noTextSection, 0, []) := by decide +kernel
/-- V8: the section table reaches past the end. -/
theorem test_load_truncated :
    loaded (elf32.take 171) = some (.loadFailed .malformedElf, 0, []) := by decide +kernel
/-- V23: address 0xFFFF9 does not fit. -/
theorem test_load_overflow :
    loaded (((elf32.set 0x90 0xF9).set 0x91 0xFF).set 0x92 0x0F)
      = some (.loadFailed .imageOverflow, 0, []) := by decide +kernel
/-- V29: the section's bytes reach past the end of the input. -/
theorem test_load_short_input :
    loaded (elf32.set 0x94 0xA8) = some (.loadFailed .malformedElf, 0, []) := by decide +kernel
/-- W2: a 64-bit address is not cut to 32 bits. -/
theorem test_load_wide_address :
    loaded (elf64.set 0xD4 1) = some (.loadFailed .imageOverflow, 0, []) := by decide +kernel

end Sys2Proof.Tests
end

