-- ==== Sys2Proof/Tests/Witnesses.lean ====
section
/-! SUPPORT. For every statement of Certificates/Slice0/Obligations.lean that has hypotheses, a concrete
state and operands that meet all of them together; where a statement has several clauses, one for each,
at the values where the clauses meet. -/

namespace Sys2Proof.Tests
open Sys2Proof.Machine

/-! ## Hypotheses of the statements at `exec` -/

/-- JalCompletesWithLinkAndTarget: every pc is `A + 4` for some `A`; here the one of A = 0xFFFFFFFC. -/
theorem witness_jal_pc : (machineAt 0 []).pc = 0xFFFFFFFC + 4 := by decide

/-- BeqzCompletesAndBranchesOnZeroOnly: a zero and a nonzero register. -/
theorem witness_beqz_clauses :
    (machineAt 0x1000 []).reg 1 = 0 ∧ (machineAt 0x1000 [(1, 1)]).reg 1 ≠ 0 := by decide

/-- SdCompletesWithBothWordsStored, FetchSeesWordsStoredBySd: the last pair of registers at the highest
address that succeeds (T9). -/
theorem witness_sd_completes :
    (machine [(5, 0xFFFF8)] 0x01E28023).mem.wf = true ∧ (31 : RegIx).val = (30 : RegIx).val + 1 ∧
    ((machine [(5, 0xFFFF8)] 0x01E28023).sdAddress 5 0).toNat = 0xFFFF8 ∧
    0xFFFF8 + 8 ≤ 0x100000 := by decide

/-- FetchSeesWordsStoredBySd: SD answers a next state there. -/
theorem witness_sd_next :
    (nextOf (exec (.sd 5 30 0) (machine [(5, 0xFFFF8)] 0x01E28023))).isSome = true := by decide

/-- SdOfRegister31Faults. -/
theorem witness_sd_register31 : (31 : RegIx).val = 31 := by decide

/-- SdFirstWriteOutOfRangeWritesNothing: the first address of its range (T12). -/
theorem witness_sd_first_write :
    (8 : RegIx).val ≠ 31 ∧ 0xFFFFC < ((machine [(5, 0xFFFFD)] 0x00828023).sdAddress 5 0).toNat := by
  decide

/-- SdSecondWriteOutOfRangeKeepsFirstWord: both ends of its range (T10, T11). -/
theorem witness_sd_second_write :
    (machine [(5, 0xFFFF9)] 0x00828023).mem.wf = true ∧ (9 : RegIx).val = (8 : RegIx).val + 1 ∧
    ((machine [(5, 0xFFFF9)] 0x00828023).sdAddress 5 0).toNat = 0xFFFF9 ∧
    ((machine [(5, 0xFFFFC)] 0x00828023).sdAddress 5 0).toNat = 0xFFFFC := by decide

/-- SdTouchesOnlyItsEightBytes: an address that wraps (T15). -/
theorem witness_sd_frame :
    (machine [(5, 0xFFFFFFF0)] 0x02828023).mem.wf = true ∧
    ((machine [(5, 0xFFFFFFF0)] 0x02828023).sdAddress 5 0x20).toNat = 0x10 := by decide

/-! ## A running machine with a given word at its pc -/

/-- `s` runs and fetches `w`. -/
def fetches (s : State) (w : Word) : Bool := decide (s.run = .running) && decide (s.fetch = .ok w)

/-- StepExecutesDecodedInstruction. -/
theorem witness_step_decoded :
    fetches (machine [] 0x00828823) 0x00828823 = true ∧ decode 0x00828823 = .ok (.sd 5 8 16) := by
  decide

/-- FetchBeyondMemoryFaults: the first pc of its range (F2). -/
theorem witness_fetch_beyond :
    (machineAt 0xFFFFD []).run = .running ∧ 0xFFFFC < (machineAt 0xFFFFD []).pc.toNat := by decide

/-- FetchIsLittleEndianAtAnyAlignment: the last pc of its range, and one that is not a multiple of 4. -/
theorem witness_fetch_in_range :
    (machineAt 0xFFFFC []).pc.toNat ≤ 0xFFFFC ∧ (machineAt 0x1002 []).pc.toNat ≤ 0xFFFFC := by decide

/-- UnknownWordFaultsAfterTheAdvance: an unknown opcode. -/
theorem witness_unknown_opcode :
    fetches (machine [] 0) 0 = true ∧ IsUnknownWord 0 := by
  refine ⟨by decide, .inl ?_⟩
  decide

/-- UnknownWordFaultsAfterTheAdvance: both ends of the unknown `w[14:12]` (M5, M6); its second clause: a
step that ends so. -/
theorem witness_unknown_funct3 :
    fetches (machine [] 0x00512093) 0x00512093 = true ∧ IsUnknownWord 0x00512093 ∧
    IsUnknownWord 0x00517093 ∧
    (nextOf (step (machine [] 0x00512093))).map (·.run) = some (.fault .unknownInstruction) := by
  refine ⟨by decide, .inr ?_, .inr ?_, by decide⟩ <;> decide

/-- StepOfOpcode33AddsRegisters. -/
theorem witness_opcode33 :
    fetches (machine [] 0x402081B3) 0x402081B3 = true ∧
    (0x402081B3 : Word).extractLsb' 0 7 = 0x33#7 := by decide

/-- StepOfOpcode13Funct0AddsImmediate. -/
theorem witness_opcode13_funct0 :
    fetches (machine [] 0xFFF08093) 0xFFF08093 = true ∧
    (0xFFF08093 : Word).extractLsb' 0 7 = 0x13#7 ∧ (0xFFF08093 : Word).extractLsb' 12 3 = 0#3 := by
  decide

/-- StepOfOpcode13Funct1CopiesRegister. -/
theorem witness_opcode13_funct1 :
    fetches (machine [] 0x00329313) 0x00329313 = true ∧
    (0x00329313 : Word).extractLsb' 0 7 = 0x13#7 ∧ (0x00329313 : Word).extractLsb' 12 3 = 1#3 := by
  decide

/-- StepOfOpcode63BranchesFromAdvancedPc. -/
theorem witness_opcode63 :
    fetches (machine [] 0x80008E63) 0x80008E63 = true ∧
    (0x80008E63 : Word).extractLsb' 0 7 = 0x63#7 := by decide

/-- StepOfOpcode6FLinksAndJumps. -/
theorem witness_opcode6f :
    fetches (machine [] 0xFF4000EF) 0xFF4000EF = true ∧
    (0xFF4000EF : Word).extractLsb' 0 7 = 0x6F#7 := by decide

/-- StepOfOpcode73Halts. -/
theorem witness_opcode73 :
    fetches (machine [] 0x30200073) 0x30200073 = true ∧
    (0x30200073 : Word).extractLsb' 0 7 = 0x73#7 := by decide

/-- JumpToItselfRunsForever. -/
theorem witness_jump_to_itself :
    fetches (machine [] 0x000000EF) 0x000000EF = true ∧
    (0x000000EF : Word).extractLsb' 0 7 = 0x6F#7 ∧ (0x000000EF : Word).extractLsb' 21 11 = 0#11 := by
  decide

/-! ## Rules of the whole machine -/

/-- StepsExistExactlyWhileRunning: both clauses. -/
theorem witness_run_states : State.reset.run ≠ .running ∧ (machine [] 0).run = .running := by decide

/-- RunStateAfterStepFollowsFaultPriority: every clause has a state, at the values where clauses meet:
fetch, unknown word, ECALL, `rs2 = 31`, the last address that completes, the first that faults, and a word
of another opcode. -/
theorem witness_fault_priority :
    [machineAt 0xFFFFD [], machine [] 0, machine [(10, 7)] 0x73, machine [(5, 0x100000)] 0x01F28023,
      machine [(5, 0xFFFF8)] 0x00828023, machine [(5, 0xFFFF9)] 0x00828023, machine [] 0x33].map
      (fun s => (nextOf (step s)).map (·.run))
    = [some (.fault .outOfBoundsAccess), some (.fault .unknownInstruction), some (.halted 7),
      some (.fault .registerIndexOutOfRange), some .running, some (.fault .outOfBoundsAccess),
      some .running] := by decide

/-- RunStateAfterStepFollowsFaultPriority: the last clause's word is known. -/
theorem witness_known_word : ¬ IsUnknownWord 0x33 := by
  rintro (h | h)
  · exact absurd rfl h.1
  · exact absurd h.1 (by decide)

/-- PcAfterStepIsAdvancedUnlessBranching: a JAL, a taken BEQZ, a BEQZ not taken and an ADD, each with a
next state. -/
theorem witness_pc_clauses :
    [machine [] 0x010000EF, machine [] 0x00008463, machine [(1, 1)] 0x00008463, machine [] 0x33].map
      (fun s => (nextOf (step s)).map (·.pc))
    = [some 0x1010, some 0x100C, some 0x1004, some 0x1004] := by decide

/-- PcAfterStepIsAdvancedUnlessBranching: a fetch fault at the first pc of its range, with a next state (F2). -/
theorem witness_pc_fetch_fault :
    (nextOf (step (machineAt 0xFFFFD []))).map (fun t => (t.pc, t.run))
    = some (0xFFFFD, .fault .outOfBoundsAccess) := by decide

/-- OnlySdWritesMemoryAndOnlyRdIsWritten: canonical memory with a next state, with and without a fetched
word. -/
theorem witness_writes :
    (machine [] 0x00828023).mem.wf = true ∧
    (nextOf (step (machine [] 0x00828023))).isSome = true ∧
    (machine [] 0x00828023).fetch = .ok 0x00828023 ∧
    (machineAt 0xFFFFD []).mem.wf = true ∧ (nextOf (step (machineAt 0xFFFFD []))).isSome = true ∧
    (machineAt 0xFFFFD []).fetch = .error .outOfBoundsAccess := by decide

/-- `machine [] w` with a further byte in memory that no fetch reads. -/
def machineWith (w : Nat) (a : Nat) (b : Byte) : State :=
  { machine [] w with mem := (machine [] w).mem.poke a b }

/-- MemoryBesidesTheFetchedWordIsNeverRead: two machines that differ at 0x2000 only. -/
theorem witness_unread_memory :
    (machineWith 0x00828023 0x2000 1).mem.wf = true ∧ (machineWith 0x00828023 0x2000 2).mem.wf = true ∧
    (machineWith 0x00828023 0x2000 1).x = (machineWith 0x00828023 0x2000 2).x ∧
    (machineWith 0x00828023 0x2000 1).pc = (machineWith 0x00828023 0x2000 2).pc ∧
    (machineWith 0x00828023 0x2000 1).run = (machineWith 0x00828023 0x2000 2).run ∧
    (∀ k, k < 4 → (machineWith 0x00828023 0x2000 1).mem.byte (0x1000 + k)
      = (machineWith 0x00828023 0x2000 2).mem.byte (0x1000 + k)) ∧
    (nextOf (step (machineWith 0x00828023 0x2000 1))).isSome = true ∧
    (nextOf (step (machineWith 0x00828023 0x2000 2))).isSome = true := by decide

/-- EveryStepKeepsTheInvariant: a running state that meets the invariant and has a next state. -/
theorem witness_invariant :
    (machine [(10, 7)] 0x73).Inv ∧ (nextOf (step (machine [(10, 7)] 0x73))).isSome = true := by
  refine ⟨⟨by decide, ?_⟩, by decide⟩
  intro v h
  have running : (machine [(10, 7)] 0x73).run = .running := by decide
  rw [running] at h; cases h

/-- EveryOperationKeepsTheInvariant: at reset, with a next state of a reset and of a load (here a refused
input); a step is `witness_invariant`. -/
theorem witness_operation_invariant :
    State.reset.Inv ∧ (nextOf (react .reset State.reset)).isSome = true ∧
    (nextOf (react (.load []) State.reset)).isSome = true :=
  ⟨⟨by decide, fun v h => by cases h⟩, by decide, by decide⟩

/-- ReachableStatesMeetTheInvariant, ReachableUnloadedIsTheResetState (first clause). -/
theorem witness_reachable_reset : Reachable State.reset ∧ State.reset.run = .unloaded :=
  ⟨.reset, rfl⟩

/-- ReachableUnloadedIsTheResetState (second clause): an empty input is refused. -/
theorem witness_reachable_load_failed :
    Reachable { State.reset with run := .loadFailed .malformedElf } :=
  .react (.load []) .reset rfl

/-- SnapshotShowsAllMemoryAndRegisters: two canonical states with equal snapshots (they differ in the run
state, which the snapshot does not show). -/
theorem witness_snapshot :
    State.reset.mem.wf = true ∧ snapshot State.reset = snapshot { State.reset with run := .running } :=
  ⟨rfl, rfl⟩

/-! ## Encoding -/

/-- PlacedWordIsExecutedByTheNextStep: a fetchable pc and one that is not. -/
theorem witness_placed_word :
    decodeTableWord 32 0x00500513 = some (.addi 10 0 5) ∧ (machineAt 0xFFFFC []).mem.wf = true ∧
    (machineAt 0xFFFFC []).pc.toNat ≤ 0xFFFFC ∧ ¬ (machineAt 0xFFFFD []).pc.toNat ≤ 0xFFFFC := by
  decide

/-- DecodeInvertsEncode: well-formed instructions at the bounds of their immediates. -/
theorem witness_well_formed :
    Instr.wf (.addi 31 31 (-2048)) = true ∧ Instr.wf (.beqz 31 (-32)) = true ∧
    Instr.wf (.jal 31 (-1024)) = true ∧ Instr.wf (.sd 31 31 4095) = true := by decide

/-- EncodeRestoresAllUsedBits, DecodedOperandsAreTheFieldsOfTheWord: a decoded word of every row. -/
theorem witness_decoded_rows :
    [decode 0xFFFFFFB3, decode 0x80008093, decode 0xFFF29313, decode 0x80008063, decode 0x800000EF,
      decode 0xFE828FA3, decode 0xFFFFFFF3]
    = [.ok (.add 31 31 31), .ok (.addi 1 1 (-2048)), .ok (.mv 6 5), .ok (.beqz 1 (-32)),
      .ok (.jal 1 (-1024)), .ok (.sd 5 8 4095), .ok .ecall] := by decide

/-- AddiImmediateIsSignExtended, DecodedOperandsAreTheFieldsOfTheWord (ADDI): both bounds of the immediate. -/
theorem witness_addi_immediates :
    decode 0x80008093 = .ok (.addi 1 1 (-2048)) ∧ decode 0x7FF08093 = .ok (.addi 1 1 2047) := by decide

/-- IgnoredBitsDoNotMatter: for every clause two different words that meet its hypotheses. -/
theorem witness_ignored_bits :
    ((0x002081B3 : Word).extractLsb' 0 7 = 0x33#7 ∧
      (0x002081B3 : Word) &&& 0x01FF8FFF = 0xFE20F1B3 &&& 0x01FF8FFF) ∧
    ((0x00029313 : Word).extractLsb' 0 7 = 0x13#7 ∧ (0x00029313 : Word).extractLsb' 12 3 = 1#3 ∧
      (0x00029313 : Word) &&& 0x000FFFFF = 0xFFF29313 &&& 0x000FFFFF) ∧
    ((0x00008463 : Word).extractLsb' 0 7 = 0x63#7 ∧
      (0x00008463 : Word) &&& 0x800F8FFF = 0x7FF0F463 &&& 0x800F8FFF) ∧
    ((0x010000EF : Word).extractLsb' 0 7 = 0x6F#7 ∧
      (0x010000EF : Word) &&& 0xFFE00FFF = 0x011FF0EF &&& 0xFFE00FFF) ∧
    ((0x00828823 : Word).extractLsb' 0 7 = 0x23#7 ∧
      (0x00828823 : Word) &&& 0xFFFF8FFF = 0x0082F823 &&& 0xFFFF8FFF) ∧
    ((0x00000073 : Word).extractLsb' 0 7 = 0x73#7 ∧
      (0x00000073 : Word) &&& 0x0000007F = 0xFFFFFFF3 &&& 0x0000007F) := by decide

/-! ## Memory primitives and the loader -/

/-- MemReadIsBoundsCheckedLittleEndian, MemWriteIsBoundsCheckedLittleEndian: the last access in range and
the first out of range. -/
theorem witness_mem_access :
    1 ≤ 4 ∧ (machine [] 0x73).mem.wf = true ∧ 0x100000 < (0xFFFFD : Word).toNat + 4 ∧
    (0xFFFFC : Word).toNat + 4 ≤ 0x100000 := by decide

/-- A parser whose answer has no matching segment, and one whose answer has matching entries, the section
as given, after a null section. -/
def parseNoSegment : List Byte → Option ElfObject := fun _ => some ⟨[⟨1, 7⟩], []⟩
def parseTo (sections : List Section) : List Byte → Option ElfObject := fun _ => some ⟨[⟨1, 5⟩], sections⟩
def nullSection : Section := ⟨0, 0, 0, 0, 0⟩
def textAt (address size : Nat) : Section := ⟨1, 6, address, 1, size⟩

/-- LoadErrorsFollowTheOrderOfChecks: a state and a parser for every clause, at the bounds: no object, no
segment, no section, one byte too far in memory, one byte too far in the input. -/
theorem witness_load_errors :
    State.reset.run = .unloaded ∧
    [loadWith (fun _ => none) [] State.reset, loadWith parseNoSegment [] State.reset,
      loadWith (parseTo [nullSection, ⟨1, 7, 0, 0, 0⟩]) [] State.reset,
      loadWith (parseTo [nullSection, textAt 0xFFFFE 3]) [7, 8, 9] State.reset,
      loadWith (parseTo [nullSection, textAt 0xFFFFD 3]) [7, 8, 9] State.reset].map
      (fun o => (nextOf o).map (·.run))
    = [some (.loadFailed .malformedElf), some (.loadFailed .noExecutableSegment),
      some (.loadFailed .noTextSection), some (.loadFailed .imageOverflow),
      some (.loadFailed .malformedElf)] := by decide

/-- LoadCopiesTheSectionAndSetsThePc: a section that ends exactly at the end of memory and of the input,
after one that does not match. -/
theorem witness_load_succeeds :
    parseTo [nullSection, textAt 0xFFFFE 2] [7, 8, 9] = some ⟨[⟨1, 5⟩], [nullSection, textAt 0xFFFFE 2]⟩ ∧
    ([nullSection, textAt 0xFFFFE 2] : List Section) = [nullSection] ++ textAt 0xFFFFE 2 :: [] ∧
    ¬ (nullSection.type = 1 ∧ nullSection.flags = 6) ∧
    (textAt 0xFFFFE 2).virtualAddress + (textAt 0xFFFFE 2).size ≤ 0x100000 ∧
    (textAt 0xFFFFE 2).fileOffset + (textAt 0xFFFFE 2).size ≤ 3 := by decide

/-- LoadSucceedsOrLeavesNoTrace: both clauses. -/
theorem witness_load_states : (machine [] 0).run ≠ .unloaded ∧ State.reset.run = .unloaded := by decide

/-- ElfParseReadsTheTablesInOrder: an accepted input of each class, with entries to read. -/
theorem witness_elf_accepted :
    (elfParse elf32).isSome = true ∧ elf32.getD 4 0 = 1 ∧
    (elfParse elf64).isSome = true ∧ elf64.getD 4 0 = 2 := by decide +kernel

end Sys2Proof.Tests
end

/-! ## The decoder, by the opcode of the word -/

namespace Sys2Proof

section
variable {w : Word}

theorem decode_of_opcode33 (h : opField w = 0x33#7) :
    decode w = .ok (.add (rdField w) (rs1Field w) (rs2Field w)) := by simp [decode, h]

theorem decode_of_opcode13_funct0 (h : opField w = 0x13#7) (h3 : funct3Field w = 0#3) :
    decode w = .ok (.addi (rdField w) (rs1Field w) (addiImm w)) := by simp [decode, h, h3]

theorem decode_of_opcode13_funct1 (h : opField w = 0x13#7) (h3 : funct3Field w = 1#3) :
    decode w = .ok (.mv (rdField w) (rs1Field w)) := by simp [decode, h, h3]

theorem decode_of_opcode63 (h : opField w = 0x63#7) :
    decode w = .ok (.beqz (rs1Field w) (beqzOffset w)) := by simp [decode, h]

theorem decode_of_opcode6F (h : opField w = 0x6F#7) :
    decode w = .ok (.jal (rdField w) (jalOffset w)) := by simp [decode, h]

theorem decode_of_opcode23 (h : opField w = 0x23#7) :
    decode w = .ok (.sd (rs1Field w) (rs2Field w) (sdImm w)) := by simp [decode, h]

theorem decode_of_opcode73 (h : opField w = 0x73#7) : decode w = .ok .ecall := by
  simp [decode, h]

/-- The words of R51 and R52 are refused. -/
theorem decode_of_isUnknownWord (h : Machine.IsUnknownWord w) : ∃ why, decode w = .error why := by
  obtain ⟨h33, h13, h63, h6F, h23, h73⟩ | ⟨h13, h3⟩ := h
  · exact ⟨.unknownOpcode (opField w), by simp [decode, opField, *]⟩
  · have h0 : funct3Field w ≠ 0#3 := fun e => absurd (e ▸ h3 : 2 ≤ (0#3).toNat) (by decide)
    have h1 : funct3Field w ≠ 1#3 := fun e => absurd (e ▸ h3 : 2 ≤ (1#3).toNat) (by decide)
    exact ⟨.unknownFunct3 (funct3Field w), by simp [decode, opField, h13, h0, h1]⟩

/-- The rows of the opcode map cover every word (R50 to R52). -/
theorem opcode_cases (w : Word) :
    opField w = 0x33#7 ∨ (opField w = 0x13#7 ∧ funct3Field w = 0#3) ∨
    (opField w = 0x13#7 ∧ funct3Field w = 1#3) ∨ opField w = 0x63#7 ∨ opField w = 0x6F#7 ∨
    opField w = 0x23#7 ∨ opField w = 0x73#7 ∨ Machine.IsUnknownWord w := by
  by_contra! h
  obtain ⟨h33, h130, h131, h63, h6F, h23, h73, hknown⟩ := h
  refine hknown ?_
  by_cases h13 : opField w = 0x13#7
  · have h0 : (funct3Field w).toNat ≠ 0 := fun e => h130 h13 (BitVec.eq_of_toNat_eq e)
    have h1 : (funct3Field w).toNat ≠ 1 := fun e => h131 h13 (BitVec.eq_of_toNat_eq e)
    have h2 : 2 ≤ (funct3Field w).toNat := by omega
    exact .inr ⟨h13, h2⟩
  · exact .inl ⟨h33, h13, h63, h6F, h23, h73⟩

/-- The SD displacement as arithmetic on the two fields (R49). -/
theorem toNat_sdImm (w : Word) :
    (sdImm w).toNat = (w.extractLsb' 25 7).toNat * 32 + (w.extractLsb' 7 5).toNat := by
  have hlow : (w.extractLsb' 7 5).toNat < 2 ^ 5 := (w.extractLsb' 7 5).isLt
  have hhigh : (w.extractLsb' 25 7).toNat < 2 ^ 7 := (w.extractLsb' 25 7).isLt
  rw [sdImm, BitVec.toNat_setWidth, BitVec.toNat_append, ← Nat.shiftLeft_add_eq_or_of_lt hlow,
    Nat.shiftLeft_eq]
  omega

end

end Sys2Proof

/-! ## The instructions at `exec` -/

namespace Sys2Proof.Machine

section
variable (rd rs1 rs2 : RegIx) (imm off hoff : Word) (s : State)

theorem exec_add :
    exec (.add rd rs1 rs2) s = .next (s.setReg rd (s.reg rs1 + s.reg rs2)) := rfl

theorem exec_addi : exec (.addi rd rs1 imm) s = .next (s.setReg rd (s.reg rs1 + imm)) := rfl

theorem exec_mv : exec (.mv rd rs1) s = .next (s.setReg rd (s.reg rs1)) := rfl

theorem exec_beqz :
    exec (.beqz rs1 off) s = .next (if s.reg rs1 = 0 then s.setPc (s.pc + off) else s) := by
  simp only [exec, execBeqz, State.regIsZero, decide_eq_true_eq]

theorem exec_jal :
    exec (.jal rd hoff) s = .next ((s.setReg rd (s.pc + 4)).setPc (s.pc + 2 * hoff - 4)) := rfl

/-- JAL's target from the advanced pc is relative to the instruction's own address (R76). -/
theorem jalTarget (a : Word) : a + 4 + 2 * hoff - 4 = a + 2 * hoff := by ring

theorem exec_sd : exec (.sd rs1 rs2 imm) s = execSd rs1 rs2 imm s := rfl

theorem exec_ecall : exec .ecall s = .next (s.halt (s.reg Config.resultReg)) := rfl

end

/-! ### SD -/

section
variable {rs1 rs2 : RegIx} {imm : Word} {s t : State}

/-- SD's address as arithmetic modulo 2^32 (R81). -/
theorem toNat_sdAddress (s : State) (rs1 : RegIx) (imm : Word) :
    (s.sdAddress rs1 imm).toNat = ((s.reg rs1).toNat + imm.toNat) % 2 ^ 32 :=
  BitVec.toNat_add ..

/-- SD always answers a next state, with the registers and the pc as they were; it goes on or faults. -/
theorem execSd_next (rs1 rs2 : RegIx) (imm : Word) (s : State) :
    ∃ t, execSd rs1 rs2 imm s = .next t ∧ t.x = s.x ∧ t.pc = s.pc ∧
      (t.run = s.run ∨ ∃ kind, t.run = .fault kind) := by
  obtain ⟨-, -, h⟩ | ⟨lo, -, -, ⟨-, h⟩ | ⟨-, -, h⟩ | ⟨-, -, h⟩⟩ :=
    execSd_cases (rs1 := rs1) (rs2 := rs2) (imm := imm) (s := s)
  · exact ⟨_, h, rfl, rfl, .inr ⟨_, rfl⟩⟩
  · exact ⟨_, h, rfl, rfl, .inr ⟨_, rfl⟩⟩
  · exact ⟨_, h, rfl, rfl, .inr ⟨_, rfl⟩⟩
  · exact ⟨_, h, rfl, rfl, .inl rfl⟩

theorem execSd_frame (h : execSd rs1 rs2 imm s = .next t) :
    t.x = s.x ∧ t.pc = s.pc ∧ (t.run = s.run ∨ ∃ kind, t.run = .fault kind) := by
  obtain ⟨t', h', frame⟩ := execSd_next rs1 rs2 imm s
  cases h.symm.trans h'
  exact frame

/-- A 4-byte store inside the 8 bytes from `a` keeps the canonical form and every byte outside them. -/
theorem storeBytes_outside {m : Memory} (hwf : m.wf = true) {a b : Nat} (v : Word)
    (hb : b + 4 ≤ Config.memSize) (hab : a ≤ b) (hba : b + 4 ≤ a + 8) :
    (m.storeBytes b v 4).wf = true ∧
      ∀ q, q < a ∨ a + 8 ≤ q → (m.storeBytes b v 4).byte q = m.byte q := by
  refine ⟨wf_storeBytes hwf v hb, fun q hq => ?_⟩
  rw [byte_storeBytes hwf v hb, if_neg (by omega)]

/-- On every path SD keeps the canonical form and every byte outside the 8 bytes from its address. -/
theorem execSd_mem (hwf : s.mem.wf = true) (h : execSd rs1 rs2 imm s = .next t) :
    t.mem.wf = true ∧ SameBytesOutside s t (s.sdAddress rs1 imm).toNat 8 := by
  obtain ⟨-, -, h'⟩ | ⟨lo, -, -, ⟨-, h'⟩ | ⟨h1, -, h'⟩ | ⟨h1, h2, h'⟩⟩ :=
    execSd_cases (rs1 := rs1) (rs2 := rs2) (imm := imm) (s := s) <;> cases h.symm.trans h'
  · exact ⟨hwf, fun _ _ => rfl⟩
  · exact ⟨hwf, fun _ _ => rfl⟩
  · exact storeBytes_outside hwf lo h1 (by omega) (by omega)
  · have hnext := sdSecond_toNat h1
    obtain ⟨hwf1, hout1⟩ := storeBytes_outside hwf lo h1 le_rfl (by omega)
    obtain ⟨hwf2, hout2⟩ := storeBytes_outside hwf1 (s.sdHigh rs2) h2
      (a := (s.sdAddress rs1 imm).toNat) (by omega) (by omega)
    exact ⟨hwf2, fun q hq => (hout2 q hq).trans (hout1 q hq)⟩

theorem execSd_of_register31 (h : rs2.val = 31) :
    execSd rs1 rs2 imm s = .next (s.raise .registerIndexOutOfRange) := by
  obtain ⟨-, -, h'⟩ | ⟨-, -, hlt, -⟩ :=
    execSd_cases (rs1 := rs1) (rs2 := rs2) (imm := imm) (s := s)
  · exact h'
  · omega

/-- SD with a register pair completes exactly when its 8 bytes lie in memory (R80, R82, R117). -/
theorem execSd_run_of_pair (h : execSd rs1 rs2 imm s = .next t) (hpair : rs2.val ≠ 31) :
    t.run = if (s.sdAddress rs1 imm).toNat ≤ 0xFFFF8 then s.run else .fault .outOfBoundsAccess := by
  obtain ⟨-, h31, -⟩ | ⟨lo, -, -, ⟨h1, h'⟩ | ⟨h1, h2, h'⟩ | ⟨h1, h2, h'⟩⟩ :=
    execSd_cases (rs1 := rs1) (rs2 := rs2) (imm := imm) (s := s)
  · exact absurd h31 hpair
  · rw [memSize_eq] at h1
    cases h.symm.trans h'
    rw [if_neg (by omega), raise_run]
  · rw [sdSecond_toNat h1, memSize_eq] at h2
    cases h.symm.trans h'
    rw [if_neg (by omega), raise_run]
  · rw [sdSecond_toNat h1, memSize_eq] at h2
    cases h.symm.trans h'
    rw [if_pos (by omega)]

end

/-! ## One step, by the fetched word -/

/-- `t` is what one step makes of the running machine `s` when the word `w` stands at its pc. -/
inductive WordStep (s : State) (w : Word) : State → Prop where
  | unknown (h : IsUnknownWord w) : WordStep s w (s.advance.raise .unknownInstruction)
  | add (h : opField w = 0x33#7) :
      WordStep s w (s.advance.setReg (rdField w) (s.reg (rs1Field w) + s.reg (rs2Field w)))
  | addi (h : opField w = 0x13#7) (h3 : funct3Field w = 0#3) :
      WordStep s w (s.advance.setReg (rdField w) (s.reg (rs1Field w) + addiImm w))
  | mv (h : opField w = 0x13#7) (h3 : funct3Field w = 1#3) :
      WordStep s w (s.advance.setReg (rdField w) (s.reg (rs1Field w)))
  | beqzTaken (h : opField w = 0x63#7) (hz : s.reg (rs1Field w) = 0) :
      WordStep s w (s.advance.setPc (s.pc + 4 + beqzOffset w))
  | beqzNotTaken (h : opField w = 0x63#7) (hz : s.reg (rs1Field w) ≠ 0) : WordStep s w s.advance
  | jal (h : opField w = 0x6F#7) :
      WordStep s w ((s.advance.setReg (rdField w) (s.pc + 4 + 4)).setPc (s.pc + 2 * jalOffset w))
  | sd {t : State} (h : opField w = 0x23#7)
      (hsd : execSd (rs1Field w) (rs2Field w) (sdImm w) s.advance = .next t) : WordStep s w t
  | ecall (h : opField w = 0x73#7) : WordStep s w (s.advance.halt (s.reg Config.resultReg))

section
variable {s t : State} {w : Word}

/-- A step that answers starts from a running machine (R20). -/
theorem run_of_step (h : step s = .next t) : s.run = .running := by
  obtain ⟨-, hstop⟩ | ⟨hrun, -⟩ | ⟨hrun, -⟩ := step_cases s
  · cases h.symm.trans hstop
  · exact hrun
  · exact hrun

theorem eq_raise_of_step {kind : FaultKind} (h : step s = .next t) (hf : s.fetch = .error kind) :
    t = s.raise kind := by
  obtain ⟨-, hstop⟩ | ⟨-, hf', -, hstep⟩ | ⟨-, w, hf', -⟩ := step_cases s
  · cases h.symm.trans hstop
  · cases hf.symm.trans hf'
    cases h.symm.trans hstep
    rfl
  · cases hf.symm.trans hf'

/-- A step that fetches a word executes what the decoder reads from it, after the advance (R60). -/
theorem execDecoded_of_step (h : step s = .next t) (hf : s.fetch = .ok w) :
    execDecoded (decode w) s.advance = .next t := by
  simpa only [step, engineStep, run_of_step h, cycle, hf] using h

/-- What a step of a machine that fetches `w` can do, row by row of the opcode map. -/
theorem wordStep_of_step (h : step s = .next t) (hf : s.fetch = .ok w) : WordStep s w t := by
  replace h := execDecoded_of_step h hf
  obtain h33 | ⟨h13, h3⟩ | ⟨h13, h3⟩ | h63 | h6F | h23 | h73 | hu := opcode_cases w
  · rw [decode_of_opcode33 h33, execDecoded, exec_add] at h
    cases h; exact .add h33
  · rw [decode_of_opcode13_funct0 h13 h3, execDecoded, exec_addi] at h
    cases h; exact .addi h13 h3
  · rw [decode_of_opcode13_funct1 h13 h3, execDecoded, exec_mv] at h
    cases h; exact .mv h13 h3
  · rw [decode_of_opcode63 h63, execDecoded, exec_beqz] at h
    cases h
    split
    · next hz => exact .beqzTaken h63 hz
    · next hz => exact .beqzNotTaken h63 hz
  · rw [decode_of_opcode6F h6F, execDecoded, exec_jal, advance_pc, jalTarget] at h
    cases h; exact .jal h6F
  · rw [decode_of_opcode23 h23, execDecoded, exec_sd] at h
    exact .sd h23 h
  · rw [decode_of_opcode73 h73, execDecoded, exec_ecall] at h
    cases h; exact .ecall h73
  · obtain ⟨why, hd⟩ := decode_of_isUnknownWord hu
    rw [hd, execDecoded, execInvalid] at h
    cases h; exact .unknown hu

theorem step_of_not_running (hrun : s.run ≠ .running) : step s = .fault (.notRunning s.run) := by
  obtain ⟨-, hstop⟩ | ⟨hrun', -⟩ | ⟨hrun', -⟩ := step_cases s
  · exact hstop
  · exact absurd hrun' hrun
  · exact absurd hrun' hrun

/-- A running machine always has a next state (R20, R60, R115). -/
theorem step_next (hrun : s.run = .running) : ∃ t, step s = .next t := by
  obtain ⟨hstop, -⟩ | ⟨-, -, -, hstep⟩ | ⟨-, w, -, ⟨why, -, hstep⟩ | ⟨i, -, hstep⟩⟩ := step_cases s
  · exact absurd hrun hstop
  · exact ⟨_, hstep⟩
  · exact ⟨_, hstep⟩
  · rw [hstep]
    cases i with
    | sd rs1 rs2 imm =>
      obtain ⟨t, h, -⟩ := execSd_next rs1 rs2 imm s.advance
      exact ⟨t, h⟩
    | _ => exact ⟨_, rfl⟩

/-! ### What such a step leaves -/

/-- Such a step goes on, faults, or halts with register 10. -/
theorem WordStep.run_cases (h : WordStep s w t) (hrun : s.run = .running) :
    t.run = .running ∨ (∃ kind, t.run = .fault kind) ∨
      t = s.advance.halt (s.reg Config.resultReg) := by
  cases h with
  | unknown _ => exact .inr (.inl ⟨_, rfl⟩)
  | sd _ hsd =>
    obtain ⟨-, -, hsame | hfault⟩ := execSd_frame hsd
    · exact .inl (hsame.trans hrun)
    · exact .inr (.inl hfault)
  | ecall _ => exact .inr (.inr rfl)
  | _ => exact .inl hrun

/-- After any step the machine runs, has faulted or has halted; it is never back before a load. -/
theorem run_after_step (h : step s = .next t) :
    t.run = .running ∨ (∃ kind, t.run = .fault kind) ∨ ∃ v, t.run = .halted v := by
  cases hf : s.fetch with
  | error kind => exact .inr (.inl ⟨kind, eq_raise_of_step h hf ▸ rfl⟩)
  | ok w =>
    obtain hgo | hfault | rfl := (wordStep_of_step h hf).run_cases (run_of_step h)
    · exact .inl hgo
    · exact .inr (.inl hfault)
    · exact .inr (.inr ⟨_, rfl⟩)

theorem WordStep.wf (h : WordStep s w t) (hwf : s.mem.wf = true) : t.mem.wf = true := by
  cases h with
  | sd _ hsd => exact (execSd_mem (s := s.advance) hwf hsd).1
  | _ => exact hwf

/-- No opcode but SD's writes memory (R84). -/
theorem WordStep.mem_eq (h : WordStep s w t) (hop : opField w ≠ 0x23#7) : t.mem = s.mem := by
  cases h with
  | sd h23 _ => exact absurd h23 hop
  | _ => rfl

/-- At most the 8 bytes from the address an SD word names are written (R81, R84). -/
theorem WordStep.sameBytesOutside (h : WordStep s w t) (hwf : s.mem.wf = true) :
    SameBytesOutside s t (s.sdAddress (rs1Field w) (sdImm w)).toNat 8 := by
  cases h with
  | sd _ hsd => exact (execSd_mem (s := s.advance) hwf hsd).2
  | _ => exact fun _ _ => rfl

theorem sameRegs_of_x_eq (h : t.x = s.x) : SameRegs s t := fun q => by rw [State.reg, h, State.reg]

/-- No opcode but those of ADD, ADDI, MV and JAL writes a register. -/
theorem WordStep.sameRegs (h : WordStep s w t) (h33 : opField w ≠ 0x33#7)
    (h13 : opField w ≠ 0x13#7) (h6F : opField w ≠ 0x6F#7) : SameRegs s t := by
  cases h with
  | add h => exact absurd h h33
  | addi h _ => exact absurd h h13
  | mv h _ => exact absurd h h13
  | jal h => exact absurd h h6F
  | sd _ hsd => exact sameRegs_of_x_eq (execSd_frame hsd).1
  | _ => exact fun _ => rfl

/-- No register but `rd` is written. -/
theorem WordStep.sameRegsExcept (h : WordStep s w t) : SameRegsExcept s t (rdField w) := by
  intro q hq
  cases h with
  | add _ => exact setReg_reg_other s.advance _ hq
  | addi _ _ => exact setReg_reg_other s.advance _ hq
  | mv _ _ => exact setReg_reg_other s.advance _ hq
  | jal _ => exact setReg_reg_other s.advance _ hq
  | sd _ hsd => exact sameRegs_of_x_eq (s := s.advance) (execSd_frame hsd).1 q
  | _ => rfl

/-- Only BEQZ and JAL move the pc away from the advanced one (R77). -/
theorem WordStep.pc_eq_advanced (h : WordStep s w t) (h6F : opField w ≠ 0x6F#7)
    (h63 : ¬ (opField w = 0x63#7 ∧ s.reg (rs1Field w) = 0)) : t.pc = s.pc + 4 := by
  cases h with
  | beqzTaken h hz => exact absurd ⟨h, hz⟩ h63
  | jal h => exact absurd h h6F
  | sd _ hsd => exact (execSd_frame hsd).2.1
  | _ => rfl

/-- Only an unknown word, ECALL and SD can end the run. -/
theorem WordStep.run_eq (h : WordStep s w t) (hknown : ¬ IsUnknownWord w)
    (h73 : opField w ≠ 0x73#7) (h23 : opField w ≠ 0x23#7) : t.run = s.run := by
  cases h with
  | unknown h => exact absurd h hknown
  | sd h _ => exact absurd h h23
  | ecall h => exact absurd h h73
  | _ => rfl

end

/-! ### The rows that end the run or move the pc -/

section
variable {s t : State} {w : Word}

theorem run_of_step_unknown (h : step s = .next t) (hf : s.fetch = .ok w) (hu : IsUnknownWord w) :
    t.run = .fault .unknownInstruction := by
  obtain ⟨why, hd⟩ := decode_of_isUnknownWord hu
  replace h := execDecoded_of_step h hf
  rw [hd] at h
  cases h; rfl

theorem run_of_step_opcode73 (h : step s = .next t) (hf : s.fetch = .ok w)
    (h73 : opField w = 0x73#7) : t.run = .halted (s.reg Config.resultReg) := by
  replace h := execDecoded_of_step h hf
  rw [decode_of_opcode73 h73] at h
  cases h; rfl

theorem execSd_of_step_opcode23 (h : step s = .next t) (hf : s.fetch = .ok w)
    (h23 : opField w = 0x23#7) :
    execSd (rs1Field w) (rs2Field w) (sdImm w) s.advance = .next t := by
  replace h := execDecoded_of_step h hf
  rwa [decode_of_opcode23 h23] at h

theorem pc_of_step_opcode6F (h : step s = .next t) (hf : s.fetch = .ok w)
    (h6F : opField w = 0x6F#7) : t.pc = s.pc + 2 * jalOffset w := by
  replace h := execDecoded_of_step h hf
  rw [decode_of_opcode6F h6F, execDecoded, exec_jal] at h
  cases h
  rw [setPc_pc, advance_pc, jalTarget]

theorem pc_of_step_opcode63_zero (h : step s = .next t) (hf : s.fetch = .ok w)
    (h63 : opField w = 0x63#7) (hz : s.reg (rs1Field w) = 0) : t.pc = s.pc + 4 + beqzOffset w := by
  replace h := execDecoded_of_step h hf
  rw [decode_of_opcode63 h63, execDecoded, exec_beqz, advance_reg, if_pos hz] at h
  cases h; rfl

/-- The address an SD word names, from the word's fields (R49, R81). -/
theorem toNat_sdAddress_of_word (s : State) (w : Word) :
    (s.sdAddress (rs1Field w) (sdImm w)).toNat =
      ((s.reg (rs1Field w)).toNat +
        ((w.extractLsb' 25 7).toNat * 32 + (w.extractLsb' 7 5).toNat)) % 2 ^ 32 := by
  rw [toNat_sdAddress, toNat_sdImm]

/-- How a step of an SD word ends: index fault first, then the two writes (R121). -/
theorem run_of_step_opcode23 (h : step s = .next t) (hf : s.fetch = .ok w)
    (h23 : opField w = 0x23#7) :
    t.run = if (rs2Field w).val = 31 then .fault .registerIndexOutOfRange
      else if (s.sdAddress (rs1Field w) (sdImm w)).toNat ≤ 0xFFFF8 then .running
      else .fault .outOfBoundsAccess := by
  have hrun := run_of_step h
  have hsd := execSd_of_step_opcode23 h hf h23
  by_cases h31 : (rs2Field w).val = 31
  · rw [execSd_of_register31 h31] at hsd
    cases hsd
    rw [if_pos h31, raise_run]
  · rw [if_neg h31, execSd_run_of_pair hsd h31, advance_run, hrun]
    rfl

end

/-! ## The invariant -/

section
variable {s t : State}

/-- A machine that has not halted reports nothing. -/
theorem haltReportsX10_of_ne (h : ∀ v, s.run ≠ .halted v) : s.HaltReportsX10 :=
  fun v hv => absurd hv (h v)

theorem reset_inv : State.reset.Inv := ⟨rfl, haltReportsX10_of_ne nofun⟩

theorem raise_inv {kind : FaultKind} (h : s.mem.wf = true) : (s.raise kind).Inv :=
  ⟨h, haltReportsX10_of_ne nofun⟩

theorem step_inv (hinv : s.Inv) (h : step s = .next t) : t.Inv := by
  obtain ⟨hwf, -⟩ := hinv
  cases hf : s.fetch with
  | error kind => exact eq_raise_of_step h hf ▸ raise_inv hwf
  | ok w =>
    have hw := wordStep_of_step h hf
    refine ⟨hw.wf hwf, ?_⟩
    obtain hgo | ⟨kind, hfault⟩ | rfl := hw.run_cases (run_of_step h)
    · exact haltReportsX10_of_ne fun v hv => nomatch hgo.symm.trans hv
    · exact haltReportsX10_of_ne fun v hv => nomatch hfault.symm.trans hv
    · intro v hv
      cases hv; rfl

/-- A load that is defined keeps the invariant, whatever the parser makes of the input (R91, R94). -/
theorem loadWith_inv {parse : List Byte → Option ElfObject} {binary : List Byte} (hinv : s.Inv)
    (h : loadWith parse binary s = .next t) : t.Inv := by
  obtain ⟨hwf, -⟩ := hinv
  obtain ⟨-, h'⟩ | ⟨-, kind, -, h'⟩ | ⟨-, sec, hsel, h'⟩ := loadWith_cases parse binary s <;>
    cases h.symm.trans h'
  · exact ⟨hwf, haltReportsX10_of_ne nofun⟩
  · obtain ⟨-, -, -, -, -, hfits, hinput⟩ := selectSection_ok hsel
    refine ⟨wf_copyBytes hwf ?_, haltReportsX10_of_ne nofun⟩
    rwa [length_sectionBytes hinput]

end

/-! ## Canonical memories -/

theorem wfFrom_cell_iff {lo a : Nat} {b : Byte} {m : Memory} :
    Memory.wfFrom lo ((a, b) :: m) = true ↔
      lo ≤ a ∧ a < Config.memSize ∧ b ≠ 0 ∧ Memory.wfFrom (a + 1) m = true := by
  simp only [Memory.wfFrom, Bool.and_eq_true, decide_eq_true_eq, and_assoc]
  exact Iff.rfl

/-- A byte that is not 0 stands at or above a canonical list's lower bound. -/
theorem lowerBound_le_of_byte_ne {lo q : Nat} {m : Memory} (h : Memory.wfFrom lo m = true)
    (hq : m.byte q ≠ 0) : lo ≤ q :=
  Nat.le_of_not_lt fun hlt => hq (byte_below h hlt)

/-- Beyond the image a canonical memory lists nothing (R25). -/
theorem byte_beyond {lo q : Nat} {m : Memory} (h : Memory.wfFrom lo m = true)
    (hq : Config.memSize ≤ q) : m.byte q = 0 := by
  induction m generalizing lo with
  | nil => rfl
  | cons c m ih =>
    obtain ⟨a, b⟩ := c
    obtain ⟨-, ha, -, htail⟩ := wfFrom_cell_iff.mp h
    rw [byte_cons_cell, if_neg (by omega)]
    exact ih htail

/-- A canonical memory is determined by what its bytes read as (R33). -/
theorem eq_of_byte_eq {lo lo' : Nat} {m m' : Memory} (h : Memory.wfFrom lo m = true)
    (h' : Memory.wfFrom lo' m' = true) (heq : ∀ q, m.byte q = m'.byte q) : m = m' := by
  induction m generalizing lo lo' m' with
  | nil =>
    cases m' with
    | nil => rfl
    | cons c' m' =>
      obtain ⟨a', b'⟩ := c'
      obtain ⟨-, -, hb', -⟩ := wfFrom_cell_iff.mp h'
      have hzero := heq a'
      rw [byte_nil, byte_cons_cell, if_pos rfl] at hzero
      exact absurd hzero.symm hb'
  | cons c m ih =>
    obtain ⟨a, b⟩ := c
    obtain ⟨-, ha, hb, htail⟩ := wfFrom_cell_iff.mp h
    have hread : Memory.byte ((a, b) :: m) a = b := if_pos rfl
    cases m' with
    | nil => exact absurd (hread.symm.trans (heq a)) hb
    | cons c' m' =>
      obtain ⟨a', b'⟩ := c'
      obtain ⟨-, ha', hb', htail'⟩ := wfFrom_cell_iff.mp h'
      have hread' : Memory.byte ((a', b') :: m') a' = b' := if_pos rfl
      have hle : a ≤ a' := by
        refine lowerBound_le_of_byte_ne (wfFrom_cell_iff.mpr ⟨le_rfl, ha, hb, htail⟩) ?_
        rwa [heq, hread']
      have hle' : a' ≤ a := by
        refine lowerBound_le_of_byte_ne (wfFrom_cell_iff.mpr ⟨le_rfl, ha', hb', htail'⟩) ?_
        rwa [← heq, hread]
      obtain rfl : a = a' := le_antisymm hle hle'
      obtain rfl : b = b' := hread.symm.trans ((heq a).trans hread')
      rw [ih htail htail' fun q => ?_]
      by_cases hq : q = a
      · rw [hq, byte_below htail (Nat.lt_succ_self a), byte_below htail' (Nat.lt_succ_self a)]
      · have hcell := heq q
        rwa [byte_cons_cell, byte_cons_cell, if_neg hq, if_neg hq] at hcell

theorem snapshot_memory (s : State) :
    (snapshot s).memory = (List.range Config.memSize).map s.mem.byte := by rw [snapshot]

/-- The snapshot's memory determines every byte of a canonical image. -/
theorem mem_eq_of_snapshot_eq {s t : State} (hs : s.mem.wf = true) (ht : t.mem.wf = true)
    (h : (snapshot s).memory = (snapshot t).memory) : s.mem = t.mem := by
  rw [snapshot_memory, snapshot_memory, List.map_inj_left] at h
  refine eq_of_byte_eq hs ht fun q => ?_
  by_cases hq : q < Config.memSize
  · exact h q (List.mem_range.mpr hq)
  · rw [byte_beyond hs (Nat.le_of_not_lt hq), byte_beyond ht (Nat.le_of_not_lt hq)]

/-! ## The statements about the state and its operations -/

/-- Settles O51, by one lemma per operation: `reset_inv`, `loadWith_inv`, `step_inv`. -/
theorem everyOperationKeepsTheInvariant : Obligations.EveryOperationKeepsTheInvariant := by
  intro e s t hinv h
  cases e with
  | reset =>
    cases h
    exact reset_inv
  | load binary => exact loadWith_inv hinv h
  | step => exact step_inv hinv h

/-- Settles O11: the frame of `execSd` on every path, with its address as a sum modulo 2^32. -/
theorem sdTouchesOnlyItsEightBytes : Obligations.SdTouchesOnlyItsEightBytes := by
  rintro rs1 rs2 imm s _ hwf rfl
  obtain ⟨t, h, hx, hpc, -⟩ := execSd_next rs1 rs2 imm s
  exact ⟨toNat_sdAddress s rs1 imm, t, h, (execSd_mem hwf h).2, sameRegs_of_x_eq hx, hpc⟩

/-- Settles O23: outside `Running` the first step stops; in `Running` a step goes on, faults or halts. -/
theorem stepsExistExactlyWhileRunning : Obligations.StepsExistExactlyWhileRunning := by
  refine ⟨fun s k hrun => core_run_fault k (step_of_not_running hrun), fun s hrun => ?_⟩
  obtain ⟨t, h⟩ := step_next hrun
  refine ⟨t, h, ?_⟩
  obtain hgo | ⟨kind, hfault⟩ | ⟨v, hhalt⟩ := run_after_step h
  · simp [hgo]
  · simp [hfault]
  · simp [hhalt]

/-- Settles O24, clause by clause in the order of the events (R121). -/
theorem runStateAfterStepFollowsFaultPriority :
    Obligations.RunStateAfterStepFollowsFaultPriority := by
  intro s t hrun h
  refine ⟨fun hpc => ?_, fun w hf => ⟨run_of_step_unknown h hf, run_of_step_opcode73 h hf,
    fun h23 => ?_, fun hknown h73 h23 => ?_⟩⟩
  · have hf : s.fetch = .error .outOfBoundsAccess := fetch_of_outOfRange (by rw [memSize_eq]; omega)
    rw [eq_raise_of_step h hf, raise_run]
  · have hrun' := run_of_step_opcode23 h hf h23
    have haddr := toNat_sdAddress_of_word s w
    refine ⟨fun h31 => hrun'.trans (if_pos h31), fun h31 => ?_⟩
    replace hrun' := hrun'.trans (if_neg h31)
    exact ⟨fun hle => hrun'.trans (if_pos (haddr.trans_le hle)),
      fun hgt => hrun'.trans (if_neg (Nat.not_le.mpr (hgt.trans_eq haddr.symm)))⟩
  · exact ((wordStep_of_step h hf).run_eq hknown h73 h23).trans hrun

/-- Settles O25: JAL and a taken BEQZ set the pc, a fetch fault leaves it, every other word advances it. -/
theorem pcAfterStepIsAdvancedUnlessBranching :
    Obligations.PcAfterStepIsAdvancedUnlessBranching := by
  intro s t h
  refine ⟨fun w hf => ⟨pc_of_step_opcode6F h hf, pc_of_step_opcode63_zero h hf,
    (wordStep_of_step h hf).pc_eq_advanced⟩, fun kind hf => ?_⟩
  rw [eq_raise_of_step h hf, raise_pc]

/-- Settles O26: the frame of a step, by the row of the word it fetches. -/
theorem onlySdWritesMemoryAndOnlyRdIsWritten :
    Obligations.OnlySdWritesMemoryAndOnlyRdIsWritten := by
  intro s t hwf h
  refine ⟨fun w hf => ?_, fun kind hf => ?_⟩
  · have hw := wordStep_of_step h hf
    exact ⟨fun h23 a => by rw [hw.mem_eq h23],
      ⟨_, hw.sameBytesOutside hwf, toNat_sdAddress_of_word s w⟩, hw.sameRegsExcept, hw.sameRegs⟩
  · rw [eq_raise_of_step h hf]
    exact ⟨fun _ => rfl, fun _ => rfl, rfl⟩

/-- Settles O32, by induction on how the state is reached; the step of the induction is O51. -/
theorem reachableStatesMeetTheInvariant : Obligations.ReachableStatesMeetTheInvariant := by
  intro s hs
  induction hs with
  | reset => exact reset_inv
  | react e _ h ih => exact everyOperationKeepsTheInvariant e _ _ ih h

/-- Settles O35: a canonical memory is determined by its bytes below `memSize`. -/
theorem snapshotShowsAllMemoryAndRegisters : Obligations.SnapshotShowsAllMemoryAndRegisters := by
  refine ⟨fun s => ⟨?_, fun a ha => ?_, rfl⟩, fun s t hs ht h => ?_⟩
  · rw [snapshot_memory, List.length_map, List.length_range, memSize_eq]
  · rw [snapshot_memory, memSize_eq, List.getElem?_map, List.getElem?_range ha, Option.map_some]
  · exact ⟨mem_eq_of_snapshot_eq hs ht (congrArg Snapshot.memory h), congrArg Snapshot.registers h⟩

/-- Settles O8: the register check comes before the address is used (R121). -/
theorem sdOfRegister31Faults : Obligations.SdOfRegister31Faults :=
  fun _ _ _ _ h31 => execSd_of_register31 h31

/-- Settles O12: read after write of the register file, at every index. -/
theorem everyRegisterKeepsWhatIsWritten : Obligations.EveryRegisterKeepsWhatIsWritten :=
  fun s r v => ⟨setReg_reg_same s r v, fun _ hq => setReg_reg_other s v hq, setReg_reg_same s 0 v,
    reset_reg 0⟩

/-- Settles O31: the empty list is canonical and the reset machine has not halted. -/
theorem resetMeetsTheInvariant : Obligations.ResetMeetsTheInvariant := reset_inv

/-- Settles O34, from the fields of `State.reset`. -/
theorem resetLeavesAllZeroAndUnloaded : Obligations.ResetLeavesAllZeroAndUnloaded :=
  ⟨byte_nil, reset_reg, reset_pc, reset_run, fun _ => rfl⟩

end Sys2Proof.Machine

/-! ## Memory: reads and writes of words -/

namespace Sys2Proof.Machine

/-! ### `MemRead` and `MemWrite` by the bounds check -/

section
variable {m : Memory} {addr : Word} {n : Nat}

theorem memRead_of_inRange (h : addr.toNat + n ≤ Config.memSize) :
    memRead m addr n = .ok (m.assemble addr.toNat n) := if_pos ((inRange_iff _ _).mpr h)

theorem memRead_of_outOfRange (h : Config.memSize < addr.toNat + n) :
    memRead m addr n = .error .outOfBoundsAccess :=
  if_neg fun hr => Nat.not_le.mpr h ((inRange_iff _ _).mp hr)

theorem memWrite_of_inRange (v : BitVec (8 * n)) (h : addr.toNat + n ≤ Config.memSize) :
    memWrite m addr n v = .ok (m.storeBytes addr.toNat v n) := if_pos ((inRange_iff _ _).mpr h)

theorem memWrite_of_outOfRange (v : BitVec (8 * n)) (h : Config.memSize < addr.toNat + n) :
    memWrite m addr n v = .error .outOfBoundsAccess :=
  if_neg fun hr => Nat.not_le.mpr h ((inRange_iff _ _).mp hr)

end

/-! ### The bytes of a store, and the word read back -/

section
variable {m : Memory} {a n : Nat}

theorem byte_storeBytes_same (hwf : m.wf = true) {wd : Nat} (v : BitVec wd)
    (hn : a + n ≤ Config.memSize) {k : Nat} (hk : k < n) :
    (m.storeBytes a v n).byte (a + k) = v.extractLsb' (8 * k) 8 := by
  rw [byte_storeBytes hwf v hn, if_pos (by omega), Nat.add_sub_cancel_left]

theorem byte_storeBytes_other (hwf : m.wf = true) {wd : Nat} (v : BitVec wd)
    (hn : a + n ≤ Config.memSize) {q : Nat} (hq : q < a ∨ a + n ≤ q) :
    (m.storeBytes a v n).byte q = m.byte q := by
  rw [byte_storeBytes hwf v hn, if_neg (by omega)]

/-- The value assembled from bytes that are a value's bytes is that value (R28, R30). -/
theorem assemble_eq_of_bytes {v : BitVec (8 * n)}
    (h : ∀ k, k < n → m.byte (a + k) = v.extractLsb' (8 * k) 8) : m.assemble a n = v := by
  refine BitVec.eq_of_getLsbD_eq fun i hi => ?_
  rw [getLsbD_assemble m a n i hi, h (i / 8) (by omega), BitVec.getLsbD_extractLsb', Nat.div_add_mod,
    decide_eq_true (Nat.mod_lt i (by decide)), Bool.true_and]

/-- An assembled value as arithmetic: each further byte counts `2 ^ (8 * n)` times (R28). -/
theorem toNat_assemble_succ (m : Memory) (a n : Nat) :
    (m.assemble a (n + 1)).toNat =
      2 ^ (8 * n) * (m.byte (a + n)).toNat + (m.assemble a n).toNat := by
  rw [Memory.assemble, BitVec.toNat_cast, BitVec.toNat_append,
    ← Nat.shiftLeft_add_eq_or_of_lt (m.assemble a n).isLt, Nat.shiftLeft_eq, Nat.mul_comm]

theorem toNat_assemble_four (m : Memory) (a : Nat) :
    (m.assemble a 4).toNat = (m.byte a).toNat + 2 ^ 8 * (m.byte (a + 1)).toNat +
      2 ^ 16 * (m.byte (a + 2)).toNat + 2 ^ 24 * (m.byte (a + 3)).toNat := by
  have hzero : (m.assemble a 0).toNat = 0 := rfl
  rw [toNat_assemble_succ, toNat_assemble_succ, toNat_assemble_succ, toNat_assemble_succ, hzero,
    Nat.add_zero a]
  ring

end

/-- A stored word is fetched as it was stored, with nothing between (R30, R36). -/
theorem fetch_storeBytes_same {s : State} {addr : Word} (hwf : s.mem.wf = true) (v : Word)
    (h : addr.toNat + 4 ≤ Config.memSize) :
    State.fetch { s with mem := s.mem.storeBytes addr.toNat v 4, pc := addr } = .ok v :=
  (fetch_of_inRange h).trans <| congrArg Except.ok <|
    assemble_eq_of_bytes (n := 4) (v := v) fun _ hk => byte_storeBytes_same hwf v h hk

/-- A fetch does not see a store above the word it fetches. -/
theorem fetch_storeBytes_above {s : State} {b : Nat} (hwf : s.mem.wf = true) (v : Word)
    (hb : b + 4 ≤ Config.memSize) (hpc : s.pc.toNat + 4 ≤ b) :
    State.fetch { s with mem := s.mem.storeBytes b v 4 } = s.fetch :=
  fetch_congr rfl fun _ hk => byte_storeBytes_other hwf v hb (.inl (by dsimp only; omega))

/-! ### SD, path by path -/

section
variable {rs1 rs2 next : RegIx} {imm lo : Word} {s : State}

theorem sdLow_of_pair (h : next.val = rs2.val + 1) : s.sdLow rs2 = .ok (s.reg next) := by
  have hlt : rs2.val + 1 < 32 := by omega
  obtain rfl : next = ⟨rs2.val + 1, hlt⟩ := Fin.ext h
  exact regAt_of_lt s hlt

theorem execSd_of_firstOutOfRange (hlow : s.sdLow rs2 = .ok lo)
    (h1 : Config.memSize < (s.sdAddress rs1 imm).toNat + 4) :
    execSd rs1 rs2 imm s = .next (s.raise .outOfBoundsAccess) := by
  simp only [execSd, hlow, store4_of_outOfRange lo h1]

theorem execSd_of_secondOutOfRange (hlow : s.sdLow rs2 = .ok lo)
    (h1 : (s.sdAddress rs1 imm).toNat + 4 ≤ Config.memSize)
    (h2 : Config.memSize < (s.sdAddress rs1 imm).toNat + 8) :
    execSd rs1 rs2 imm s = .next
      (State.raise { s with mem := s.mem.storeBytes (s.sdAddress rs1 imm).toNat lo 4 }
        .outOfBoundsAccess) := by
  have h2' : Config.memSize < (s.sdAddress rs1 imm + 4).toNat + 4 := by
    rw [sdSecond_toNat h1]; omega
  simp only [execSd, hlow, store4_of_inRange lo h1, store4_of_outOfRange _ h2']

theorem execSd_of_inRange (hlow : s.sdLow rs2 = .ok lo)
    (h : (s.sdAddress rs1 imm).toNat + 8 ≤ Config.memSize) :
    execSd rs1 rs2 imm s = .next
      { s with
        mem := (s.mem.storeBytes (s.sdAddress rs1 imm).toNat lo 4).storeBytes
          (s.sdAddress rs1 imm + 4).toNat (s.reg rs2) 4 } := by
  have h1 : (s.sdAddress rs1 imm).toNat + 4 ≤ Config.memSize := by omega
  have h2 : (s.sdAddress rs1 imm + 4).toNat + 4 ≤ Config.memSize := by
    rw [sdSecond_toNat h1]; omega
  simp only [execSd, hlow, State.sdHigh, store4_of_inRange _ h1, store4_of_inRange _ h2]

end

/-! ### Writes that do not read -/

/-- `f` writes what it writes whatever the memory holds: after it any two canonical images agree at a
byte, or it has written that byte in neither. -/
def BlindWrite (f : Memory → Memory) : Prop :=
  (∀ m, m.wf = true → (f m).wf = true) ∧
  ∀ m m', m.wf = true → m'.wf = true → ∀ a,
    (f m).byte a = (f m').byte a ∨ ((f m).byte a = m.byte a ∧ (f m').byte a = m'.byte a)

theorem blindWrite_id : BlindWrite id := ⟨fun _ h => h, fun _ _ _ _ _ => .inr ⟨rfl, rfl⟩⟩

theorem blindWrite_storeBytes {a n wd : Nat} (v : BitVec wd) (h : a + n ≤ Config.memSize) :
    BlindWrite fun m => m.storeBytes a v n := by
  refine ⟨fun m hwf => wf_storeBytes hwf v h, fun m m' hwf hwf' q => ?_⟩
  by_cases hq : a ≤ q ∧ q < a + n
  · left
    rw [byte_storeBytes hwf v h, byte_storeBytes hwf' v h, if_pos hq, if_pos hq]
  · have hout : q < a ∨ a + n ≤ q := by omega
    exact .inr ⟨byte_storeBytes_other hwf v h hout, byte_storeBytes_other hwf' v h hout⟩

theorem BlindWrite.comp {f g : Memory → Memory} (hg : BlindWrite g) (hf : BlindWrite f) :
    BlindWrite (g ∘ f) := by
  obtain ⟨hfwf, hf⟩ := hf
  obtain ⟨hgwf, hg⟩ := hg
  refine ⟨fun m hwf => hgwf _ (hfwf m hwf), fun m m' hwf hwf' a => ?_⟩
  obtain heq | ⟨hkeep, hkeep'⟩ := hg _ _ (hfwf m hwf) (hfwf m' hwf') a
  · exact .inl heq
  · simp only [Function.comp_apply, hkeep, hkeep']
    exact hf m m' hwf hwf' a

/-- An operation that does not read memory: registers, pc and run state it leaves are those of `u`
whatever the memory is, and its effect on memory is a blind write. -/
def MemoryBlind (op : State → Host.Outcome State Fault Refusal) (s : State) : Prop :=
  ∃ (f : Memory → Memory) (u : State), BlindWrite f ∧
    ∀ m, op { s with mem := m } = .next { u with mem := f m }

theorem execSd_memoryBlind (rs1 rs2 : RegIx) (imm : Word) (s : State) :
    MemoryBlind (execSd rs1 rs2 imm) s := by
  by_cases h31 : rs2.val = 31
  · exact ⟨id, s.raise .registerIndexOutOfRange, blindWrite_id, fun _ => execSd_of_register31 h31⟩
  have hlow (m : Memory) :
      State.sdLow { s with mem := m } rs2 = .ok (s.reg ⟨rs2.val + 1, by omega⟩) :=
    sdLow_of_pair rfl
  by_cases h1 : Config.memSize < (s.sdAddress rs1 imm).toNat + 4
  · exact ⟨id, s.raise .outOfBoundsAccess, blindWrite_id,
      fun m => execSd_of_firstOutOfRange (hlow m) h1⟩
  have hfirst := Nat.le_of_not_lt h1
  by_cases h2 : Config.memSize < (s.sdAddress rs1 imm).toNat + 8
  · exact ⟨_, s.raise .outOfBoundsAccess, blindWrite_storeBytes _ hfirst,
      fun m => execSd_of_secondOutOfRange (hlow m) hfirst h2⟩
  · have hsecond : (s.sdAddress rs1 imm + 4).toNat + 4 ≤ Config.memSize := by
      rw [sdSecond_toNat hfirst]; omega
    exact ⟨_, s, (blindWrite_storeBytes (s.reg rs2) hsecond).comp (blindWrite_storeBytes _ hfirst),
      fun m => execSd_of_inRange (hlow m) (Nat.le_of_not_lt h2)⟩

/-- No instruction loads (R84): SD writes blindly, the others do not touch memory. -/
theorem exec_memoryBlind (i : Instr) (s : State) : MemoryBlind (exec i) s := by
  cases i with
  | sd rs1 rs2 imm => exact execSd_memoryBlind rs1 rs2 imm s
  | beqz rs1 off =>
    by_cases hz : s.reg rs1 = 0
    · exact ⟨id, s.setPc (s.pc + off), blindWrite_id,
        fun _ => (exec_beqz ..).trans (congrArg _ (if_pos hz))⟩
    · exact ⟨id, s, blindWrite_id, fun _ => (exec_beqz ..).trans (congrArg _ (if_neg hz))⟩
  | add rd rs1 rs2 => exact ⟨id, s.setReg rd (s.reg rs1 + s.reg rs2), blindWrite_id, fun _ => rfl⟩
  | addi rd rs1 imm => exact ⟨id, s.setReg rd (s.reg rs1 + imm), blindWrite_id, fun _ => rfl⟩
  | mv rd rs1 => exact ⟨id, s.setReg rd (s.reg rs1), blindWrite_id, fun _ => rfl⟩
  | jal rd hoff =>
    exact ⟨id, (s.setReg rd (s.pc + 4)).setPc (s.pc + 2 * hoff - 4), blindWrite_id, fun _ => rfl⟩
  | ecall => exact ⟨id, s.halt (s.reg Config.resultReg), blindWrite_id, fun _ => rfl⟩

theorem execDecoded_memoryBlind (d : Except Invalid Instr) (s : State) :
    MemoryBlind (execDecoded d) s := by
  cases d with
  | error why => exact ⟨id, s.raise .unknownInstruction, blindWrite_id, fun _ => rfl⟩
  | ok i => exact exec_memoryBlind i s

/-- Two machines that differ in memory only are one machine with its memory exchanged. -/
theorem eq_with_mem {s s' : State} (hx : s.x = s'.x) (hpc : s.pc = s'.pc) (hrun : s.run = s'.run) :
    s' = { s with mem := s'.mem } := by
  rw [hx, hpc, hrun]

/-! ### The statements about memory -/

/-- Settles O30: the step lemma of the invariant, `step_inv`. -/
theorem everyStepKeepsTheInvariant : Obligations.EveryStepKeepsTheInvariant :=
  fun _ _ hinv h => step_inv hinv h

/-- Settles O10: the first word is a 4-byte store in range, the second write raises the fault. -/
theorem sdSecondWriteOutOfRangeKeepsFirstWord :
    Obligations.SdSecondWriteOutOfRangeKeepsFirstWord := by
  rintro rs1 rs2 next imm s _ hwf hnext rfl hge hle
  have h1 : (s.sdAddress rs1 imm).toNat + 4 ≤ Config.memSize := by rw [memSize_eq]; omega
  have h2 : Config.memSize < (s.sdAddress rs1 imm).toNat + 8 := by rw [memSize_eq]; omega
  exact ⟨_, execSd_of_secondOutOfRange (sdLow_of_pair hnext) h1 h2, rfl,
    fun _ hk => byte_storeBytes_same hwf _ h1 hk,
    fun _ hq => byte_storeBytes_other hwf _ h1 hq, fun _ => rfl, rfl⟩

/-- Settles O15: no alignment enters the fetch, and the assembled word is the sum of its bytes. -/
theorem fetchIsLittleEndianAtAnyAlignment : Obligations.FetchIsLittleEndianAtAnyAlignment := by
  intro s hpc
  exact ⟨_, fetch_of_inRange (by rw [memSize_eq]; omega), toNat_assemble_four _ _⟩

/-- Settles O27: equal bytes at the pc give equal fetches, and execution is blind to memory. -/
theorem memoryBesidesTheFetchedWordIsNeverRead :
    Obligations.MemoryBesidesTheFetchedWordIsNeverRead := by
  intro s s' t t' hwf hwf' hx hpc hrun hbytes h h'
  have hfetch := fetch_congr hpc hbytes
  cases hf : s.fetch with
  | error kind =>
    rw [eq_raise_of_step h hf, eq_raise_of_step h' (hfetch ▸ hf)]
    exact ⟨hx, hpc, rfl, fun _ => .inr ⟨rfl, rfl⟩⟩
  | ok w =>
    have hd := execDecoded_of_step h hf
    have hd' := execDecoded_of_step h' (hfetch ▸ hf)
    obtain ⟨f, u, ⟨-, hblind⟩, hop⟩ := execDecoded_memoryBlind (decode w) s.advance
    rw [eq_with_mem hx hpc hrun] at hd'
    cases hd.symm.trans (hop s.mem)
    cases hd'.symm.trans (hop s'.mem)
    exact ⟨rfl, rfl, rfl, hblind _ _ hwf hwf'⟩

/-- Settles O28: each fetch reads back one of SD's two stores; the second leaves the first in place. -/
theorem fetchSeesWordsStoredBySd : Obligations.FetchSeesWordsStoredBySd := by
  intro rs1 rs2 next imm s t hwf hnext hle h
  have h8 : (s.sdAddress rs1 imm).toNat + 8 ≤ Config.memSize := hle
  have h1 : (s.sdAddress rs1 imm).toNat + 4 ≤ Config.memSize := by omega
  have hsecond := sdSecond_toNat h1
  have hwf1 := wf_storeBytes hwf (s.reg next) h1
  cases h.symm.trans (execSd_of_inRange (sdLow_of_pair hnext) h8)
  constructor
  · exact (fetch_storeBytes_above (s := { s with mem := _, pc := s.sdAddress rs1 imm }) hwf1 _
      (by omega) hsecond.ge).trans (fetch_storeBytes_same hwf _ h1)
  · exact fetch_storeBytes_same (s := { s with mem := _ }) hwf1 _ (by omega)

/-- Settles O44, by the bounds check and byte `k` of the assembled value. -/
theorem memReadIsBoundsCheckedLittleEndian : Obligations.MemReadIsBoundsCheckedLittleEndian :=
  fun m addr n _ => ⟨memRead_of_outOfRange,
    fun h => ⟨_, memRead_of_inRange h, fun k hk => byte_assemble m addr.toNat n k hk⟩⟩

/-- Settles O45, by the bounds check and what every byte reads as after the store. -/
theorem memWriteIsBoundsCheckedLittleEndian : Obligations.MemWriteIsBoundsCheckedLittleEndian :=
  fun _ _ _ v _ hwf => ⟨memWrite_of_outOfRange v,
    fun h => ⟨_, memWrite_of_inRange v h, wf_storeBytes hwf v h,
      fun _ hk => byte_storeBytes_same hwf v h hk,
      fun _ hq => byte_storeBytes_other hwf v h hq⟩⟩

end Sys2Proof.Machine

/-! ## Decoding and encoding -/

namespace Sys2Proof

/-- What the decoder can read from `w`, row by row of the opcode map (R50). -/
inductive DecodesTo (w : Word) : Instr → Prop where
  | add (h : opField w = 0x33#7) : DecodesTo w (.add (rdField w) (rs1Field w) (rs2Field w))
  | addi (h : opField w = 0x13#7) (h3 : funct3Field w = 0#3) :
      DecodesTo w (.addi (rdField w) (rs1Field w) (addiImm w))
  | mv (h : opField w = 0x13#7) (h3 : funct3Field w = 1#3) :
      DecodesTo w (.mv (rdField w) (rs1Field w))
  | beqz (h : opField w = 0x63#7) : DecodesTo w (.beqz (rs1Field w) (beqzOffset w))
  | jal (h : opField w = 0x6F#7) : DecodesTo w (.jal (rdField w) (jalOffset w))
  | sd (h : opField w = 0x23#7) : DecodesTo w (.sd (rs1Field w) (rs2Field w) (sdImm w))
  | ecall (h : opField w = 0x73#7) : DecodesTo w .ecall

section
variable {w : Word} {i : Instr}

theorem decodesTo_of_decode (h : decode w = .ok i) : DecodesTo w i := by
  obtain h33 | ⟨h13, h3⟩ | ⟨h13, h3⟩ | h63 | h6F | h23 | h73 | hu := opcode_cases w
  · cases h.symm.trans (decode_of_opcode33 h33); exact .add h33
  · cases h.symm.trans (decode_of_opcode13_funct0 h13 h3); exact .addi h13 h3
  · cases h.symm.trans (decode_of_opcode13_funct1 h13 h3); exact .mv h13 h3
  · cases h.symm.trans (decode_of_opcode63 h63); exact .beqz h63
  · cases h.symm.trans (decode_of_opcode6F h6F); exact .jal h6F
  · cases h.symm.trans (decode_of_opcode23 h23); exact .sd h23
  · cases h.symm.trans (decode_of_opcode73 h73); exact .ecall h73
  · obtain ⟨why, hwhy⟩ := decode_of_isUnknownWord hu
    cases h.symm.trans hwhy

/-- The decoder refuses exactly the words of R51 and R52. -/
theorem decode_error_iff : (∃ why, decode w = .error why) ↔ Machine.IsUnknownWord w := by
  refine ⟨fun ⟨why, hwhy⟩ => ?_, decode_of_isUnknownWord⟩
  obtain h33 | ⟨h13, h3⟩ | ⟨h13, h3⟩ | h63 | h6F | h23 | h73 | hu := opcode_cases w
  · cases hwhy.symm.trans (decode_of_opcode33 h33)
  · cases hwhy.symm.trans (decode_of_opcode13_funct0 h13 h3)
  · cases hwhy.symm.trans (decode_of_opcode13_funct1 h13 h3)
  · cases hwhy.symm.trans (decode_of_opcode63 h63)
  · cases hwhy.symm.trans (decode_of_opcode6F h6F)
  · cases hwhy.symm.trans (decode_of_opcode23 h23)
  · cases hwhy.symm.trans (decode_of_opcode73 h73)
  · exact hu

end

/-! ### Fields and immediates as arithmetic on the word (R42, R45, R47, R48, R49) -/

section
variable (w : Word)

theorem toNat_field (s n : Nat) : (w.extractLsb' s n).toNat = w.toNat / 2 ^ s % 2 ^ n := by
  rw [BitVec.extractLsb'_toNat, Nat.shiftRight_eq_div_pow]

theorem rdField_val : (rdField w).val = w.toNat / 2 ^ 7 % 32 := toNat_field w 7 5

theorem rs1Field_val : (rs1Field w).val = w.toNat / 2 ^ 15 % 32 := toNat_field w 15 5

theorem rs2Field_val : (rs2Field w).val = w.toNat / 2 ^ 20 % 32 := toNat_field w 20 5

theorem opField_eq_iff (k : BitVec 7) : opField w = k ↔ w.toNat % 128 = k.toNat := by
  rw [opField, ← BitVec.toNat_inj, toNat_field, pow_zero, Nat.div_one]
  exact Iff.rfl

theorem funct3Field_eq_iff (k : BitVec 3) :
    funct3Field w = k ↔ w.toNat / 2 ^ 12 % 8 = k.toNat := by
  rw [funct3Field, ← BitVec.toNat_inj, toNat_field]
  exact Iff.rfl

/-- A sign bit over `n` bits, as a two's complement number. -/
theorem toInt_sign_append (s n : Nat) :
    (w.extractLsb' 31 1 ++ w.extractLsb' s n).toInt =
      (w.toNat / 2 ^ s % 2 ^ n : Int) - 2 ^ n * (w.toNat / 2 ^ 31 : Int) := by
  have hw : w.toNat < 2 ^ 32 := w.isLt
  have hsign : (w.extractLsb' 31 1).toInt = - (w.toNat / 2 ^ 31 : Int) := by
    rw [BitVec.toInt_eq_toNat_cond, toNat_field]
    omega
  rw [BitVec.toInt_append, if_neg (by decide), hsign, toNat_field]
  push_cast
  ring

theorem toInt_addiImm :
    (addiImm w).toInt = (w.toNat / 2 ^ 20 % 2048 : Int) - 2048 * (w.toNat / 2 ^ 31 : Int) := by
  have hw : w.toNat < 2 ^ 32 := w.isLt
  rw [addiImm, BitVec.toInt_signExtend_of_le (by decide), BitVec.toInt_eq_toNat_cond, toNat_field]
  omega

theorem toInt_beqzOffset :
    (beqzOffset w).toInt = (w.toNat / 2 ^ 7 % 32 : Int) - 32 * (w.toNat / 2 ^ 31 : Int) := by
  rw [beqzOffset, BitVec.toInt_signExtend_of_le (by decide)]
  exact toInt_sign_append w 7 5

theorem toInt_jalOffset :
    (jalOffset w).toInt = (w.toNat / 2 ^ 21 % 1024 : Int) - 1024 * (w.toNat / 2 ^ 31 : Int) := by
  rw [jalOffset, BitVec.toInt_signExtend_of_le (by decide)]
  exact toInt_sign_append w 21 10

theorem toNat_sdImm_of_word :
    (sdImm w).toNat = 32 * (w.toNat / 2 ^ 25) + w.toNat / 2 ^ 7 % 32 := by
  have hw : w.toNat < 2 ^ 32 := w.isLt
  rw [toNat_sdImm, toNat_field, toNat_field]
  omega

end

/-! ### The decoder as arithmetic on the word, row by row -/

section
variable {rd rs1 rs2 : RegIx} {w imm off hoff : Word}

theorem decode_eq_add_iff : decode w = .ok (.add rd rs1 rs2) ↔
    w.toNat % 128 = 0x33 ∧ rd.val = w.toNat / 2 ^ 7 % 32 ∧ rs1.val = w.toNat / 2 ^ 15 % 32 ∧
      rs2.val = w.toNat / 2 ^ 20 % 32 := by
  rw [← rdField_val, ← rs1Field_val, ← rs2Field_val, Fin.val_inj, Fin.val_inj, Fin.val_inj]
  constructor
  · intro h
    cases decodesTo_of_decode h with
    | add hop => exact ⟨(opField_eq_iff w _).mp hop, rfl, rfl, rfl⟩
  · rintro ⟨hop, rfl, rfl, rfl⟩
    exact decode_of_opcode33 ((opField_eq_iff w _).mpr hop)

theorem decode_eq_addi_iff : decode w = .ok (.addi rd rs1 imm) ↔
    (w.toNat % 128 = 0x13 ∧ w.toNat / 2 ^ 12 % 8 = 0) ∧ rd.val = w.toNat / 2 ^ 7 % 32 ∧
      rs1.val = w.toNat / 2 ^ 15 % 32 ∧
      imm.toInt = (w.toNat / 2 ^ 20 % 2048 : Int) - 2048 * (w.toNat / 2 ^ 31 : Int) := by
  rw [← rdField_val, ← rs1Field_val, ← toInt_addiImm, Fin.val_inj, Fin.val_inj, BitVec.toInt_inj]
  constructor
  · intro h
    cases decodesTo_of_decode h with
    | addi hop h3 =>
      exact ⟨⟨(opField_eq_iff w _).mp hop, (funct3Field_eq_iff w _).mp h3⟩, rfl, rfl, rfl⟩
  · rintro ⟨⟨hop, h3⟩, rfl, rfl, rfl⟩
    exact decode_of_opcode13_funct0 ((opField_eq_iff w _).mpr hop)
      ((funct3Field_eq_iff w _).mpr h3)

theorem decode_eq_mv_iff : decode w = .ok (.mv rd rs1) ↔
    (w.toNat % 128 = 0x13 ∧ w.toNat / 2 ^ 12 % 8 = 1) ∧ rd.val = w.toNat / 2 ^ 7 % 32 ∧
      rs1.val = w.toNat / 2 ^ 15 % 32 := by
  rw [← rdField_val, ← rs1Field_val, Fin.val_inj, Fin.val_inj]
  constructor
  · intro h
    cases decodesTo_of_decode h with
    | mv hop h3 => exact ⟨⟨(opField_eq_iff w _).mp hop, (funct3Field_eq_iff w _).mp h3⟩, rfl, rfl⟩
  · rintro ⟨⟨hop, h3⟩, rfl, rfl⟩
    exact decode_of_opcode13_funct1 ((opField_eq_iff w _).mpr hop)
      ((funct3Field_eq_iff w _).mpr h3)

theorem decode_eq_beqz_iff : decode w = .ok (.beqz rs1 off) ↔
    w.toNat % 128 = 0x63 ∧ rs1.val = w.toNat / 2 ^ 15 % 32 ∧
      off.toInt = (w.toNat / 2 ^ 7 % 32 : Int) - 32 * (w.toNat / 2 ^ 31 : Int) := by
  rw [← rs1Field_val, ← toInt_beqzOffset, Fin.val_inj, BitVec.toInt_inj]
  constructor
  · intro h
    cases decodesTo_of_decode h with
    | beqz hop => exact ⟨(opField_eq_iff w _).mp hop, rfl, rfl⟩
  · rintro ⟨hop, rfl, rfl⟩
    exact decode_of_opcode63 ((opField_eq_iff w _).mpr hop)

theorem decode_eq_jal_iff : decode w = .ok (.jal rd hoff) ↔
    w.toNat % 128 = 0x6F ∧ rd.val = w.toNat / 2 ^ 7 % 32 ∧
      hoff.toInt = (w.toNat / 2 ^ 21 % 1024 : Int) - 1024 * (w.toNat / 2 ^ 31 : Int) := by
  rw [← rdField_val, ← toInt_jalOffset, Fin.val_inj, BitVec.toInt_inj]
  constructor
  · intro h
    cases decodesTo_of_decode h with
    | jal hop => exact ⟨(opField_eq_iff w _).mp hop, rfl, rfl⟩
  · rintro ⟨hop, rfl, rfl⟩
    exact decode_of_opcode6F ((opField_eq_iff w _).mpr hop)

theorem decode_eq_sd_iff : decode w = .ok (.sd rs1 rs2 imm) ↔
    w.toNat % 128 = 0x23 ∧ rs1.val = w.toNat / 2 ^ 15 % 32 ∧ rs2.val = w.toNat / 2 ^ 20 % 32 ∧
      imm.toNat = 32 * (w.toNat / 2 ^ 25) + w.toNat / 2 ^ 7 % 32 := by
  rw [← rs1Field_val, ← rs2Field_val, ← toNat_sdImm_of_word, Fin.val_inj, Fin.val_inj,
    BitVec.toNat_inj]
  constructor
  · intro h
    cases decodesTo_of_decode h with
    | sd hop => exact ⟨(opField_eq_iff w _).mp hop, rfl, rfl, rfl⟩
  · rintro ⟨hop, rfl, rfl, rfl⟩
    exact decode_of_opcode23 ((opField_eq_iff w _).mpr hop)

end

/-! ### The encoder as arithmetic on the operands (R57) -/

section

/-- Fields that do not overlap are joined by `|||` as by addition. -/
theorem toNat_or_of_dvd {x y : Word} {a b : Nat} (k : Nat) (hx : x.toNat = a) (hy : y.toNat = b)
    (ha : 2 ^ k ∣ a) (hb : b < 2 ^ k) : (x ||| y).toNat = a + b := by
  obtain ⟨q, rfl⟩ := ha
  rw [BitVec.toNat_or, hx, hy, Nat.two_pow_add_eq_or_of_lt hb]

theorem toNat_placed {x : Word} {a : Nat} (k : Nat) (hx : x.toNat = a) (h : a * 2 ^ k < 2 ^ 32) :
    (x <<< k).toNat = a * 2 ^ k := by
  rw [BitVec.toNat_shiftLeft, hx, Nat.shiftLeft_eq, Nat.mod_eq_of_lt h]

/-- The low `n` bits of a word. -/
theorem toNat_and_low (x : Word) (n : Nat) (h : n ≤ 32) :
    (x &&& BitVec.ofNat 32 (2 ^ n - 1)).toNat = x.toNat % 2 ^ n := by
  have hlt : 2 ^ n - 1 < 2 ^ 32 :=
    Nat.lt_of_lt_of_le (Nat.sub_one_lt (by positivity)) (Nat.pow_le_pow_right (by decide) h)
  rw [BitVec.toNat_and, BitVec.toNat_ofNat, Nat.mod_eq_of_lt hlt, Nat.and_two_pow_sub_one_eq_mod]

theorem toNat_shiftRight (x : Word) (k : Nat) : (x >>> k).toNat = x.toNat / 2 ^ k := by
  rw [BitVec.toNat_ushiftRight, Nat.shiftRight_eq_div_pow]

theorem toNat_shiftRight_and_one (x : Word) (k : Nat) :
    ((x >>> k) &&& 1).toNat = x.toNat / 2 ^ k % 2 := by
  rw [BitVec.toNat_and, toNat_shiftRight]
  exact Nat.and_one_is_mod _

theorem toNat_regWord (r : RegIx) : (regWord r).toNat = r.val :=
  Nat.mod_eq_of_lt (Nat.lt_trans r.isLt (by decide))

/-- A register number at bit `k`. -/
theorem toNat_regWord_placed (r : RegIx) (k : Nat) (hk : k ≤ 27) :
    (regWord r <<< k).toNat = r.val * 2 ^ k := by
  refine toNat_placed k (toNat_regWord r) ?_
  calc r.val * 2 ^ k < 32 * 2 ^ k := Nat.mul_lt_mul_of_pos_right r.isLt (by positivity)
    _ ≤ 32 * 2 ^ 27 := Nat.mul_le_mul_left _ (Nat.pow_le_pow_right (by decide) hk)

variable (rd rs1 rs2 : RegIx) (imm off hoff : Word)

theorem toNat_encode_add : (encode (.add rd rs1 rs2)).toNat =
    rs2.val * 2 ^ 20 + rs1.val * 2 ^ 15 + rd.val * 2 ^ 7 + 0x33 :=
  toNat_or_of_dvd 7
    (toNat_or_of_dvd 12
      (toNat_or_of_dvd 20 (toNat_regWord_placed rs2 20 (by decide))
        (toNat_regWord_placed rs1 15 (by decide)) (by omega) (by omega))
      (toNat_regWord_placed rd 7 (by decide)) (by omega) (by omega))
    rfl (by omega) (by decide)

theorem toNat_encode_addi : (encode (.addi rd rs1 imm)).toNat =
    imm.toNat % 2 ^ 12 * 2 ^ 20 + rs1.val * 2 ^ 15 + rd.val * 2 ^ 7 + 0x13 :=
  toNat_or_of_dvd 7
    (toNat_or_of_dvd 12
      (toNat_or_of_dvd 20 (toNat_placed 20 (toNat_and_low imm 12 (by decide)) (by omega))
        (toNat_regWord_placed rs1 15 (by decide)) (by omega) (by omega))
      (toNat_regWord_placed rd 7 (by decide)) (by omega) (by omega))
    rfl (by omega) (by decide)

theorem toNat_encode_mv : (encode (.mv rd rs1)).toNat =
    rs1.val * 2 ^ 15 + 2 ^ 12 + rd.val * 2 ^ 7 + 0x13 :=
  toNat_or_of_dvd 7
    (toNat_or_of_dvd 12
      (toNat_or_of_dvd 15 (toNat_regWord_placed rs1 15 (by decide)) rfl (by omega) (by decide))
      (toNat_regWord_placed rd 7 (by decide)) (by omega) (by omega))
    rfl (by omega) (by decide)

theorem toNat_encode_beqz : (encode (.beqz rs1 off)).toNat =
    off.toNat / 2 ^ 5 % 2 * 2 ^ 31 + rs1.val * 2 ^ 15 + off.toNat % 2 ^ 5 * 2 ^ 7 + 0x63 :=
  toNat_or_of_dvd 7
    (toNat_or_of_dvd 12
      (toNat_or_of_dvd 20 (toNat_placed 31 (toNat_shiftRight_and_one off 5) (by omega))
        (toNat_regWord_placed rs1 15 (by decide)) (by omega) (by omega))
      (toNat_placed 7 (toNat_and_low off 5 (by decide)) (by omega)) (by omega) (by omega))
    rfl (by omega) (by decide)

theorem toNat_encode_jal : (encode (.jal rd hoff)).toNat =
    hoff.toNat / 2 ^ 10 % 2 * 2 ^ 31 + hoff.toNat % 2 ^ 10 * 2 ^ 21 + rd.val * 2 ^ 7 + 0x6F :=
  toNat_or_of_dvd 7
    (toNat_or_of_dvd 12
      (toNat_or_of_dvd 31 (toNat_placed 31 (toNat_shiftRight_and_one hoff 10) (by omega))
        (toNat_placed 21 (toNat_and_low hoff 10 (by decide)) (by omega)) (by omega) (by omega))
      (toNat_regWord_placed rd 7 (by decide)) (by omega) (by omega))
    rfl (by omega) (by decide)

theorem toNat_encode_sd (h : imm.toNat < 2 ^ 12) : (encode (.sd rs1 rs2 imm)).toNat =
    imm.toNat / 2 ^ 5 * 2 ^ 25 + rs2.val * 2 ^ 20 + rs1.val * 2 ^ 15 +
      imm.toNat % 2 ^ 5 * 2 ^ 7 + 0x23 :=
  toNat_or_of_dvd 7
    (toNat_or_of_dvd 12
      (toNat_or_of_dvd 20
        (toNat_or_of_dvd 25 (toNat_placed 25 (toNat_shiftRight imm 5) (by omega))
          (toNat_regWord_placed rs2 20 (by decide)) (by omega) (by omega))
        (toNat_regWord_placed rs1 15 (by decide)) (by omega) (by omega))
      (toNat_placed 7 (toNat_and_low imm 5 (by decide)) (by omega)) (by omega) (by omega))
    rfl (by omega) (by decide)

end

/-! ### Decoding the encoding -/

theorem fitsSigned_iff {n : Nat} {v : Word} :
    fitsSigned n v = true ↔ -(2 ^ (n - 1) : Int) ≤ v.toInt ∧ v.toInt < 2 ^ (n - 1) := by
  rw [fitsSigned, Bool.and_eq_true, decide_eq_true_iff, decide_eq_true_iff]

theorem fitsUnsigned_iff {n : Nat} {v : Word} : fitsUnsigned n v = true ↔ v.toNat < 2 ^ n :=
  decide_eq_true_iff

/-- The decoder reads every operand back from where the encoder put it (R54, R57). -/
theorem decode_encode {i : Instr} (hwf : i.wf = true) : decode (encode i) = .ok i := by
  cases i with
  | add rd rs1 rs2 =>
    have henc := toNat_encode_add rd rs1 rs2
    rw [decode_eq_add_iff]
    omega
  | addi rd rs1 imm =>
    obtain ⟨hlo, hhi⟩ := fitsSigned_iff.mp hwf
    have himm := BitVec.toInt_eq_toNat_cond imm
    have henc := toNat_encode_addi rd rs1 imm
    rw [decode_eq_addi_iff]
    omega
  | mv rd rs1 =>
    have henc := toNat_encode_mv rd rs1
    rw [decode_eq_mv_iff]
    omega
  | beqz rs1 off =>
    obtain ⟨hlo, hhi⟩ := fitsSigned_iff.mp hwf
    have hoff := BitVec.toInt_eq_toNat_cond off
    have henc := toNat_encode_beqz rs1 off
    rw [decode_eq_beqz_iff]
    omega
  | jal rd hoff =>
    obtain ⟨hlo, hhi⟩ := fitsSigned_iff.mp hwf
    have hhoff := BitVec.toInt_eq_toNat_cond hoff
    have henc := toNat_encode_jal rd hoff
    rw [decode_eq_jal_iff]
    omega
  | sd rs1 rs2 imm =>
    have himm := fitsUnsigned_iff.mp hwf
    have henc := toNat_encode_sd rs1 rs2 imm himm
    -- `rs2` and the high part of the immediate share the quotient at bit 20.
    have hfrom20 : (encode (.sd rs1 rs2 imm)).toNat / 2 ^ 20 =
        imm.toNat / 2 ^ 5 * 2 ^ 5 + rs2.val := by omega
    rw [decode_eq_sd_iff]
    omega
  | ecall => rfl

/-! ### Fields in their places, as masks of the word -/

section

/-- A field put back in its place is the word with every other bit cleared. -/
theorem field_placed (w : Word) (s n : Nat) :
    (w.extractLsb' s n).setWidth 32 <<< s = w &&& BitVec.ofNat 32 (2 ^ n - 1) <<< s := by
  refine BitVec.eq_of_getLsbD_eq fun i hi => ?_
  have hsub : i - s < 32 := by omega
  rw [BitVec.getLsbD_and, BitVec.getLsbD_shiftLeft, BitVec.getLsbD_shiftLeft,
    BitVec.getLsbD_setWidth, BitVec.getLsbD_extractLsb', BitVec.getLsbD_ofNat,
    Nat.testBit_two_pow_sub_one, decide_eq_true hi, decide_eq_true hsub]
  by_cases his : i < s
  · simp [his]
  · rw [Nat.add_sub_cancel' (Nat.le_of_not_lt his)]
    simp [his, Bool.and_comm]

/-- The low `n` bits of a word that agree with a field are that field. -/
theorem and_low_eq_field {x w : Word} {s n : Nat}
    (h : ∀ i < n, i < 32 → x.getLsbD i = w.getLsbD (s + i)) :
    x &&& BitVec.ofNat 32 (2 ^ n - 1) = (w.extractLsb' s n).setWidth 32 := by
  refine BitVec.eq_of_getLsbD_eq fun i hi => ?_
  rw [BitVec.getLsbD_and, BitVec.getLsbD_setWidth, BitVec.getLsbD_extractLsb', BitVec.getLsbD_ofNat,
    Nat.testBit_two_pow_sub_one, decide_eq_true hi, Bool.true_and, Bool.true_and]
  by_cases hin : i < n
  · rw [h i hin hi, decide_eq_true hin, Bool.and_true, Bool.true_and]
  · simp [hin]

variable (w : Word)

theorem low_field (n : Nat) :
    (w.extractLsb' 0 n).setWidth 32 = w &&& BitVec.ofNat 32 (2 ^ n - 1) :=
  (and_low_eq_field fun i _ _ => by rw [Nat.zero_add]).symm

theorem regWord_toFin (x : BitVec 5) : regWord x.toFin = x.setWidth 32 := BitVec.ofNat_toNat 32 x

theorem rdField_placed : regWord (rdField w) <<< 7 = w &&& 0x00000F80 := by
  rw [rdField, regWord_toFin]; exact field_placed w 7 5

theorem rs1Field_placed : regWord (rs1Field w) <<< 15 = w &&& 0x000F8000 := by
  rw [rs1Field, regWord_toFin]; exact field_placed w 15 5

theorem rs2Field_placed : regWord (rs2Field w) <<< 20 = w &&& 0x01F00000 := by
  rw [rs2Field, regWord_toFin]; exact field_placed w 20 5

theorem addiImm_placed : (addiImm w &&& 0xFFF) <<< 20 = w &&& 0xFFF00000 := by
  have h : addiImm w &&& 0xFFF = (w.extractLsb' 20 12).setWidth 32 :=
    and_low_eq_field (s := 20) (n := 12) fun i hi hi' => by rw [getLsbD_addiImm w hi', if_pos hi]
  rw [h]; exact field_placed w 20 12

theorem beqzOffset_low_placed : (beqzOffset w &&& 0x1F) <<< 7 = w &&& 0x00000F80 := by
  have h : beqzOffset w &&& 0x1F = (w.extractLsb' 7 5).setWidth 32 :=
    and_low_eq_field (s := 7) (n := 5) fun i hi hi' => by rw [getLsbD_beqzOffset w hi', if_pos hi]
  rw [h]; exact field_placed w 7 5

theorem beqzOffset_sign_placed : ((beqzOffset w >>> 5) &&& 1) <<< 31 = w &&& 0x80000000 := by
  have h : (beqzOffset w >>> 5) &&& 1 = (w.extractLsb' 31 1).setWidth 32 :=
    and_low_eq_field (s := 31) (n := 1) fun i hi _ => by
      obtain rfl : i = 0 := by omega
      rw [BitVec.getLsbD_ushiftRight, getLsbD_beqzOffset w (by decide), if_neg (by decide)]
  rw [h]; exact field_placed w 31 1

theorem jalOffset_low_placed : (jalOffset w &&& 0x3FF) <<< 21 = w &&& 0x7FE00000 := by
  have h : jalOffset w &&& 0x3FF = (w.extractLsb' 21 10).setWidth 32 :=
    and_low_eq_field (s := 21) (n := 10) fun i hi hi' => by rw [getLsbD_jalOffset w hi', if_pos hi]
  rw [h]; exact field_placed w 21 10

theorem jalOffset_sign_placed : ((jalOffset w >>> 10) &&& 1) <<< 31 = w &&& 0x80000000 := by
  have h : (jalOffset w >>> 10) &&& 1 = (w.extractLsb' 31 1).setWidth 32 :=
    and_low_eq_field (s := 31) (n := 1) fun i hi _ => by
      obtain rfl : i = 0 := by omega
      rw [BitVec.getLsbD_ushiftRight, getLsbD_jalOffset w (by decide), if_neg (by decide)]
  rw [h]; exact field_placed w 31 1

theorem sdImm_low_placed : (sdImm w &&& 0x1F) <<< 7 = w &&& 0x00000F80 := by
  have h : sdImm w &&& 0x1F = (w.extractLsb' 7 5).setWidth 32 :=
    and_low_eq_field (s := 7) (n := 5) fun i hi hi' => by rw [getLsbD_sdImm w hi', if_pos hi]
  rw [h]; exact field_placed w 7 5

theorem sdImm_high_placed : (sdImm w >>> 5) <<< 25 = w &&& 0xFE000000 := by
  have h : sdImm w >>> 5 = (w.extractLsb' 25 7).setWidth 32 := by
    refine BitVec.eq_of_toNat_eq ?_
    have hw : w.toNat < 2 ^ 32 := w.isLt
    rw [BitVec.toNat_ushiftRight, Nat.shiftRight_eq_div_pow, toNat_sdImm_of_word,
      BitVec.toNat_setWidth, toNat_field]
    omega
  rw [h]; exact field_placed w 25 7

variable {w}

theorem and_opcode {k : BitVec 7} (h : opField w = k) : w &&& 0x0000007F = k.setWidth 32 := by
  rw [← h]; exact (low_field w 7).symm

theorem and_funct3 {k : BitVec 3} (h : funct3Field w = k) :
    w &&& 0x00007000 = k.setWidth 32 <<< 12 := by
  rw [← h]; exact (field_placed w 12 3).symm

/-- The keys of opcode 0x13 together: opcode and funct3 (R41). -/
theorem and_opcode_funct3 {k : BitVec 7} {f : BitVec 3} (h : opField w = k)
    (h3 : funct3Field w = f) :
    w &&& 0x0000707F = f.setWidth 32 <<< 12 ||| k.setWidth 32 := by
  rw [← and_opcode h, ← and_funct3 h3, ← BitVec.and_or_distrib_left]
  rfl

/-- A field that a mask keeps whole is read from the masked word. -/
theorem field_of_and_eq {m p : Word} {s n : Nat} (h : w &&& m = p)
    (hm : m.extractLsb' s n = BitVec.allOnes n) : w.extractLsb' s n = p.extractLsb' s n := by
  rw [← h, BitVec.extractLsb'_and, hm, BitVec.and_allOnes]

/-- Words that agree under a mask agree on every field the mask keeps whole. -/
theorem field_eq_of_and_eq {w' m : Word} {s n : Nat} (h : w &&& m = w' &&& m)
    (hm : m.extractLsb' s n = BitVec.allOnes n) : w'.extractLsb' s n = w.extractLsb' s n :=
  (field_of_and_eq rfl hm).trans (field_of_and_eq h hm).symm

end

/-! ### Encoding what was decoded -/

section
variable {w w' : Word} {i i' : Instr}

theorem DecodesTo.wf (h : DecodesTo w i) : i.wf = true := by
  have hw : w.toNat < 2 ^ 32 := w.isLt
  cases h with
  | add | mv | ecall => rfl
  | addi =>
    have := toInt_addiImm w
    exact fitsSigned_iff.mpr (by omega)
  | beqz =>
    have := toInt_beqzOffset w
    exact fitsSigned_iff.mpr (by omega)
  | jal =>
    have := toInt_jalOffset w
    exact fitsSigned_iff.mpr (by omega)
  | sd =>
    have := toNat_sdImm_of_word w
    exact fitsUnsigned_iff.mpr (by omega)

/-- Every used bit returns to its place, every ignored bit is cleared (R43, R57). -/
theorem DecodesTo.encode_eq (h : DecodesTo w i) : encode i = w &&& i.row.used := by
  cases h with
  | add h =>
    have hkey : w &&& 0x7F = 0x33 := and_opcode h
    rw [encode, rs2Field_placed, rs1Field_placed, rdField_placed, ← hkey]
    simp only [← BitVec.and_or_distrib_left]
    rfl
  | addi h h3 =>
    have hkey : w &&& 0x707F = 0x13 := and_opcode_funct3 h h3
    rw [encode, addiImm_placed, rs1Field_placed, rdField_placed, ← hkey]
    simp only [← BitVec.and_or_distrib_left]
    rfl
  | mv h h3 =>
    have hkey : w &&& 0x7F = 0x13 := and_opcode h
    have hfunct3 : w &&& 0x7000 = ((1 <<< 12 : Nat) : Word) :=
      (and_funct3 h3).trans (by decide)
    rw [encode, rs1Field_placed, rdField_placed, ← hkey, ← hfunct3]
    simp only [← BitVec.and_or_distrib_left]
    rfl
  | beqz h =>
    have hkey : w &&& 0x7F = 0x63 := and_opcode h
    rw [encode, beqzOffset_sign_placed, rs1Field_placed, beqzOffset_low_placed, ← hkey]
    simp only [← BitVec.and_or_distrib_left]
    rfl
  | jal h =>
    have hkey : w &&& 0x7F = 0x6F := and_opcode h
    rw [encode, jalOffset_sign_placed, jalOffset_low_placed, rdField_placed, ← hkey]
    simp only [← BitVec.and_or_distrib_left]
    rfl
  | sd h =>
    have hkey : w &&& 0x7F = 0x23 := and_opcode h
    rw [encode, sdImm_high_placed, rs2Field_placed, rs1Field_placed, sdImm_low_placed, ← hkey]
    simp only [← BitVec.and_or_distrib_left]
    rfl
  | ecall h => exact (and_opcode h).symm

/-- Two words of one row that agree on its used bits have one encoding, so they decode alike. -/
theorem decode_eq_of_used_bits_eq (h : decode w = .ok i) (h' : decode w' = .ok i')
    (hrow : i'.row = i.row) (hused : w &&& i.row.used = w' &&& i.row.used) :
    decode w = decode w' := by
  have hi := decodesTo_of_decode h
  have hi' := decodesTo_of_decode h'
  have henc : encode i = encode i' := by rw [hi.encode_eq, hi'.encode_eq, hrow, hused]
  calc decode w = decode (encode i) := h.trans (decode_encode hi.wf).symm
    _ = decode (encode i') := congrArg decode henc
    _ = decode w' := (decode_encode hi'.wf).trans h'.symm

end

/-! ### Instructions as bytes (R30, R40) -/

theorem wordOfBytes_extract (w : Word) :
    wordOfBytes (w.extractLsb' 0 8) (w.extractLsb' 8 8) (w.extractLsb' 16 8) (w.extractLsb' 24 8)
      = w := by
  have h0 : (w.extractLsb' 0 8).setWidth 32 = w &&& 0x000000FF := low_field w 8
  have h1 : (w.extractLsb' 8 8).setWidth 32 <<< 8 = w &&& 0x0000FF00 := field_placed w 8 8
  have h2 : (w.extractLsb' 16 8).setWidth 32 <<< 16 = w &&& 0x00FF0000 := field_placed w 16 8
  have h3 : (w.extractLsb' 24 8).setWidth 32 <<< 24 = w &&& 0xFF000000 := field_placed w 24 8
  rw [wordOfBytes, h0, h1, h2, h3]
  simp only [← BitVec.and_or_distrib_left]
  exact BitVec.and_allOnes

theorem decodeBytes_bytesOfWord {w : Word} {i : Instr} (h : decode w = .ok i) (rest : List Byte) :
    decodeBytes (bytesOfWord w ++ rest) = .ok (i, rest) := by
  have hbytes : decodeBytes (bytesOfWord w ++ rest) = (decode w).map fun i => (i, rest) :=
    congrArg (fun v => (decode v).map fun i => (i, rest)) (wordOfBytes_extract w)
  rw [hbytes, h]
  rfl

end Sys2Proof

/-! ### The statements about the encoding -/

namespace Sys2Proof.Machine

/-- Settles O37, by `decode_encode` and the word that its four bytes make. -/
theorem decodeInvertsEncode : Obligations.DecodeInvertsEncode :=
  fun _ hwf => ⟨decode_encode hwf, decodeBytes_bytesOfWord (decode_encode hwf)⟩

/-- Settles O38, row by row: the ranges and the places of the fields. -/
theorem encodeRestoresAllUsedBits : Obligations.EncodeRestoresAllUsedBits :=
  fun _ _ h => ⟨(decodesTo_of_decode h).wf, (decodesTo_of_decode h).encode_eq⟩

/-- Settles O39: a row's mask keeps exactly the row's keys. -/
theorem decoderFollowsTheOpcodeMap : Obligations.DecoderFollowsTheOpcodeMap := by
  intro w
  refine ⟨?add, ?addi, ?mv, ?beqz, ?jal, ?sd, ?ecall, decode_error_iff⟩
  case add =>
    refine ⟨fun ⟨_, _, _, hd⟩ => ?_, fun h => ⟨_, _, _, decode_of_opcode33 (field_of_and_eq h rfl)⟩⟩
    cases decodesTo_of_decode hd with
    | add hop => exact and_opcode hop
  case addi =>
    refine ⟨fun ⟨_, _, _, hd⟩ => ?_, fun h =>
      ⟨_, _, _, decode_of_opcode13_funct0 (field_of_and_eq h rfl) (field_of_and_eq h rfl)⟩⟩
    cases decodesTo_of_decode hd with
    | addi hop h3 => exact and_opcode_funct3 hop h3
  case mv =>
    refine ⟨fun ⟨_, _, hd⟩ => ?_, fun h =>
      ⟨_, _, decode_of_opcode13_funct1 (field_of_and_eq h rfl) (field_of_and_eq h rfl)⟩⟩
    cases decodesTo_of_decode hd with
    | mv hop h3 => exact and_opcode_funct3 hop h3
  case beqz =>
    refine ⟨fun ⟨_, _, hd⟩ => ?_, fun h => ⟨_, _, decode_of_opcode63 (field_of_and_eq h rfl)⟩⟩
    cases decodesTo_of_decode hd with
    | beqz hop => exact and_opcode hop
  case jal =>
    refine ⟨fun ⟨_, _, hd⟩ => ?_, fun h => ⟨_, _, decode_of_opcode6F (field_of_and_eq h rfl)⟩⟩
    cases decodesTo_of_decode hd with
    | jal hop => exact and_opcode hop
  case sd =>
    refine ⟨fun ⟨_, _, _, hd⟩ => ?_, fun h => ⟨_, _, _, decode_of_opcode23 (field_of_and_eq h rfl)⟩⟩
    cases decodesTo_of_decode hd with
    | sd hop => exact and_opcode hop
  case ecall =>
    refine ⟨fun hd => ?_, fun h => decode_of_opcode73 (field_of_and_eq h rfl)⟩
    cases decodesTo_of_decode hd with
    | ecall hop => exact and_opcode hop

/-- Settles O40: both words decode in one row, where the used bits decide. -/
theorem ignoredBitsDoNotMatter : Obligations.IgnoredBitsDoNotMatter := by
  intro w w'
  refine ⟨fun hop h => ?add, fun hop h3 h => ?mv, fun hop h => ?beqz, fun hop h => ?jal,
    fun hop h => ?sd, fun hop h => ?ecall⟩
  case add =>
    exact decode_eq_of_used_bits_eq (decode_of_opcode33 hop)
      (decode_of_opcode33 ((field_eq_of_and_eq h rfl).trans hop)) rfl h
  case mv =>
    exact decode_eq_of_used_bits_eq (decode_of_opcode13_funct1 hop h3)
      (decode_of_opcode13_funct1 ((field_eq_of_and_eq h rfl).trans hop)
        ((field_eq_of_and_eq h rfl).trans h3)) rfl h
  case beqz =>
    exact decode_eq_of_used_bits_eq (decode_of_opcode63 hop)
      (decode_of_opcode63 ((field_eq_of_and_eq h rfl).trans hop)) rfl h
  case jal =>
    exact decode_eq_of_used_bits_eq (decode_of_opcode6F hop)
      (decode_of_opcode6F ((field_eq_of_and_eq h rfl).trans hop)) rfl h
  case sd =>
    exact decode_eq_of_used_bits_eq (decode_of_opcode23 hop)
      (decode_of_opcode23 ((field_eq_of_and_eq h rfl).trans hop)) rfl h
  case ecall =>
    exact decode_eq_of_used_bits_eq (decode_of_opcode73 hop)
      (decode_of_opcode73 ((field_eq_of_and_eq h rfl).trans hop)) rfl h

/-- Settles O41: the decoder delivers `addiImm`, whose value has the sign at bit 31. -/
theorem addiImmediateIsSignExtended : Obligations.AddiImmediateIsSignExtended := by
  intro w rd rs1 imm h
  have hw : w.toNat < 2 ^ 32 := w.isLt
  cases decodesTo_of_decode h with
  | addi =>
    refine ⟨rfl, ?_⟩
    rw [toInt_addiImm]
    omega

/-- Settles O42, by the decoder's arithmetic form of every row. -/
theorem decodedOperandsAreTheFieldsOfTheWord :
    Obligations.DecodedOperandsAreTheFieldsOfTheWord :=
  fun _ => ⟨fun _ _ _ h => (decode_eq_add_iff.mp h).2, fun _ _ _ h => (decode_eq_addi_iff.mp h).2,
    fun _ _ h => (decode_eq_mv_iff.mp h).2, fun _ _ h => (decode_eq_beqz_iff.mp h).2,
    fun _ _ h => (decode_eq_jal_iff.mp h).2, fun _ _ _ h => (decode_eq_sd_iff.mp h).2⟩

/-- Settles O43, each word by evaluating the decoder. -/
theorem writtenOutWordsDecode : Obligations.WrittenOutWordsDecode :=
  ⟨rfl, rfl, rfl, rfl, rfl, rfl, rfl, rfl, rfl⟩

end Sys2Proof.Machine

/-! ## The step cycle: a step by the decoded instruction, and the jump to itself -/

namespace Sys2Proof

/-- A zero field `w[31:21]` is a zero offset: every bit of the offset is a bit of that field (R48). -/
theorem jalOffset_eq_zero {w : Word} (h : w.extractLsb' 21 11 = 0#11) : jalOffset w = 0 := by
  have hbit : ∀ i, i < 11 → w.getLsbD (21 + i) = false := fun i hi => by
    simpa [hi, -BitVec.getLsbD_eq_getElem] using congrArg (·.getLsbD i) h
  refine BitVec.eq_of_getLsbD_eq fun i hi => ?_
  rw [getLsbD_jalOffset w hi]
  split
  · next hlow => exact (hbit i (by omega)).trans BitVec.getLsbD_zero.symm
  · exact (hbit 10 (by decide)).trans BitVec.getLsbD_zero.symm

end Sys2Proof

namespace Sys2Proof.Machine

section
variable {s : State} {w : Word}

/-- A running machine executes the instruction it decodes, after the advance (R60, R62). -/
theorem step_of_decode {i : Instr} (hrun : s.run = .running) (hf : s.fetch = .ok w)
    (hd : decode w = .ok i) : step s = exec i s.advance := by
  obtain ⟨hstop, -⟩ | ⟨-, hf', -⟩ | ⟨-, w', hf', hw⟩ := step_cases s
  · exact absurd hrun hstop
  · cases hf.symm.trans hf'
  · cases hf.symm.trans hf'
    obtain ⟨why, hd', -⟩ | ⟨i', hd', hstep⟩ := hw
    · cases hd.symm.trans hd'
    · cases hd.symm.trans hd'
      exact hstep

/-- A fetch beyond memory ends the step before the advance (R61). -/
theorem step_of_fetch_outOfRange (hrun : s.run = .running)
    (hpc : Config.memSize < s.pc.toNat + 4) : step s = .next (s.raise .outOfBoundsAccess) := by
  obtain ⟨t, hstep⟩ := step_next hrun
  rw [hstep, eq_raise_of_step hstep (fetch_of_outOfRange hpc)]

/-- A JAL word links and jumps relative to its own address (R76). -/
theorem step_of_opcode6F (hrun : s.run = .running) (hf : s.fetch = .ok w)
    (h6F : opField w = 0x6F#7) :
    step s = .next
      ((s.advance.setReg (rdField w) (s.pc + 4 + 4)).setPc (s.pc + 2 * jalOffset w)) := by
  rw [step_of_decode hrun hf (decode_of_opcode6F h6F), exec_jal, advance_pc, jalTarget]

/-- A jump to itself leaves the machine running at the same pc with the same memory (R64, R76). -/
theorem step_of_jumpToItself (hrun : s.run = .running) (hf : s.fetch = .ok w)
    (h6F : opField w = 0x6F#7) (hzero : w.extractLsb' 21 11 = 0#11) :
    ∃ t, step s = .next t ∧ t.run = .running ∧ t.pc = s.pc ∧ t.mem = s.mem := by
  have htarget : s.pc + 2 * jalOffset w = s.pc := by
    rw [jalOffset_eq_zero hzero, mul_zero, add_zero]
  exact ⟨_, step_of_opcode6F hrun hf h6F, hrun, htarget, rfl⟩

end

/-- Settles O29, by induction on the number of steps: each step leaves the pc and the memory, so the next
one fetches the same word. -/
theorem jumpToItselfRunsForever : Obligations.JumpToItselfRunsForever := by
  intro s w hrun hf h6F hzero n
  induction n generalizing s with
  | zero => exact ⟨s, core_run_zero s, hrun, rfl, fun _ => rfl⟩
  | succ n ih =>
    obtain ⟨s', hstep, hrun', hpc', hmem'⟩ := step_of_jumpToItself hrun hf h6F hzero
    have hf' : s'.fetch = .ok w := (fetch_congr hpc' fun _ _ => by rw [hmem']).trans hf
    obtain ⟨t, hruns, htrun, htpc, htmem⟩ := ih s' hrun' hf'
    exact ⟨t, (core_run_next n hstep).trans hruns, htrun, htpc.trans hpc',
      fun a => (htmem a).trans (by rw [hmem'])⟩

/-- Settles O13: the state advanced by 4 is `s.advance`. -/
theorem stepExecutesDecodedInstruction : Obligations.StepExecutesDecodedInstruction :=
  fun _ _ _ hrun hf hd => step_of_decode hrun hf hd

/-- Settles O14: from pc 0xFFFFD on, the last of the 4 bytes lies beyond memory. -/
theorem fetchBeyondMemoryFaults : Obligations.FetchBeyondMemoryFaults := by
  intro s hrun hpc
  have hrange : Config.memSize < s.pc.toNat + 4 := by rw [memSize_eq]; omega
  exact step_of_fetch_outOfRange hrun hrange

end Sys2Proof.Machine

/-! ## The integer instructions: ADD, ADDI and MV -/

namespace Sys2Proof.Machine

/-- A register write is all that ADD, ADDI and MV do: what it leaves unchanged (R70 to R72). -/
theorem setReg_frame (s : State) (rd : RegIx) (v : Word) :
    SameRegsExcept s (s.setReg rd v) rd ∧ SameBytes s (s.setReg rd v) ∧
      (s.setReg rd v).pc = s.pc ∧ (s.setReg rd v).run = s.run :=
  ⟨fun _ hq => setReg_reg_other s v hq, fun _ => rfl, setReg_pc s rd v, setReg_run s rd v⟩

/-- A written sum reads back modulo 2^32: the carry is lost (R73). -/
theorem toNat_reg_setReg_add (s : State) (rd : RegIx) (a b : Word) :
    ((s.setReg rd (a + b)).reg rd).toNat = (a.toNat + b.toNat) % 2 ^ 32 := by
  rw [setReg_reg_same, BitVec.toNat_add]

section
variable {s : State} {w : Word}

/-- An ADD word writes the sum of the two registers it names, after the advance (R70). -/
theorem step_of_opcode33 (hrun : s.run = .running) (hf : s.fetch = .ok w)
    (h33 : opField w = 0x33#7) :
    step s = .next (s.advance.setReg (rdField w) (s.reg (rs1Field w) + s.reg (rs2Field w))) := by
  rw [step_of_decode hrun hf (decode_of_opcode33 h33), exec_add, advance_reg, advance_reg]

/-- An ADDI word adds its sign-extended immediate, after the advance (R71). -/
theorem step_of_opcode13_funct0 (hrun : s.run = .running) (hf : s.fetch = .ok w)
    (h13 : opField w = 0x13#7) (h0 : funct3Field w = 0#3) :
    step s = .next (s.advance.setReg (rdField w) (s.reg (rs1Field w) + addiImm w)) := by
  rw [step_of_decode hrun hf (decode_of_opcode13_funct0 h13 h0), exec_addi, advance_reg]

/-- An MV word copies the register it names, after the advance (R72). -/
theorem step_of_opcode13_funct1 (hrun : s.run = .running) (hf : s.fetch = .ok w)
    (h13 : opField w = 0x13#7) (h1 : funct3Field w = 1#3) :
    step s = .next (s.advance.setReg (rdField w) (s.reg (rs1Field w))) := by
  rw [step_of_decode hrun hf (decode_of_opcode13_funct1 h13 h1), exec_mv, advance_reg]

end

/-- Settles O1: ADD is one register write of a sum. -/
theorem addCompletesWithWrappedSum : Obligations.AddCompletesWithWrappedSum :=
  fun rd rs1 rs2 s => ⟨_, exec_add rd rs1 rs2 s,
    toNat_reg_setReg_add s rd (s.reg rs1) (s.reg rs2), setReg_frame s rd _⟩

/-- Settles O2: ADDI is one register write of a sum. -/
theorem addiCompletesWithWrappedSum : Obligations.AddiCompletesWithWrappedSum :=
  fun rd rs1 imm s => ⟨_, exec_addi rd rs1 imm s,
    toNat_reg_setReg_add s rd (s.reg rs1) imm, setReg_frame s rd _⟩

/-- Settles O3: MV is one register write of the register it reads. -/
theorem mvCompletesWithExactCopy : Obligations.MvCompletesWithExactCopy :=
  fun rd rs1 s => ⟨_, exec_mv rd rs1 s, setReg_reg_same s rd (s.reg rs1), setReg_frame s rd _⟩

/-- Settles O17: the statement's bit fields are the decoder's, its advanced state is `s.advance`. -/
theorem stepOfOpcode33AddsRegisters : Obligations.StepOfOpcode33AddsRegisters :=
  fun _ _ hrun hf h33 => step_of_opcode33 hrun hf h33

/-- Settles O18, by the ADDI row of the step. -/
theorem stepOfOpcode13Funct0AddsImmediate : Obligations.StepOfOpcode13Funct0AddsImmediate :=
  fun _ _ hrun hf h13 h0 => step_of_opcode13_funct0 hrun hf h13 h0

/-- Settles O19, by the MV row of the step, which names no bit of `w[31:20]`. -/
theorem stepOfOpcode13Funct1CopiesRegister : Obligations.StepOfOpcode13Funct1CopiesRegister :=
  fun _ _ hrun hf h13 h1 => step_of_opcode13_funct1 hrun hf h13 h1

end Sys2Proof.Machine

/-! ## Control transfer: BEQZ and JAL -/

namespace Sys2Proof.Machine

/-- Writing the pc leaves every register, every byte and the run state (R75). -/
theorem setPc_frame (s : State) (v : Word) :
    SameRegs s (s.setPc v) ∧ SameBytes s (s.setPc v) ∧ (s.setPc v).run = s.run :=
  ⟨setPc_reg s v, fun _ => rfl, setPc_run s v⟩

/-- The later of two pc writes stands, whatever register is written between them (R62, R76). -/
theorem setPc_setReg_setPc (s : State) (v v' : Word) (rd : RegIx) (link : Word) :
    ((s.setPc v).setReg rd link).setPc v' = (s.setPc v').setReg rd link := rfl

/-- JAL's link from the advanced pc is 8 above the instruction's own address (R76). -/
theorem jalLink (a : Word) : a + 4 + 4 = a + 8 := by ring

section
variable {s : State} {rs1 : RegIx} (off : Word)

theorem exec_beqz_of_zero (hz : s.reg rs1 = 0) :
    exec (.beqz rs1 off) s = .next (s.setPc (s.pc + off)) := by
  rw [exec_beqz, if_pos hz]

theorem exec_beqz_of_ne_zero (hz : s.reg rs1 ≠ 0) : exec (.beqz rs1 off) s = .next s := by
  rw [exec_beqz, if_neg hz]

end

section
variable {s : State} {w : Word}

/-- A BEQZ word changes the pc alone, relative to the advanced pc (R75). -/
theorem step_of_opcode63 (hrun : s.run = .running) (hf : s.fetch = .ok w)
    (h63 : opField w = 0x63#7) :
    step s = .next (s.setPc
      (if s.reg (rs1Field w) = 0 then s.pc + 4 + beqzOffset w else s.pc + 4)) := by
  rw [step_of_decode hrun hf (decode_of_opcode63 h63)]
  split
  · next hz => exact exec_beqz_of_zero (s := s.advance) (beqzOffset w) hz
  · next hz => exact exec_beqz_of_ne_zero (s := s.advance) (beqzOffset w) hz

end

/-- Settles O4, by the two outcomes of the test: a pc write or no change. -/
theorem beqzCompletesAndBranchesOnZeroOnly : Obligations.BeqzCompletesAndBranchesOnZeroOnly := by
  intro rs1 off s
  by_cases hz : s.reg rs1 = 0
  · exact ⟨_, exec_beqz_of_zero off hz, fun _ => BitVec.toNat_add s.pc off,
      fun hne => absurd hz hne, setPc_frame s _⟩
  · exact ⟨s, exec_beqz_of_ne_zero off hz, fun h0 => absurd h0 hz, fun _ => rfl,
      fun _ => rfl, fun _ => rfl, rfl⟩

/-- Settles O5: JAL is a register write and a pc write, both relative to `A`. -/
theorem jalCompletesWithLinkAndTarget : Obligations.JalCompletesWithLinkAndTarget := by
  intro rd hoff A s hpc
  have hexec : exec (.jal rd hoff) s = .next ((s.setReg rd (A + 8)).setPc (A + 2 * hoff)) := by
    rw [exec_jal, hpc, jalLink, jalTarget]
  exact ⟨_, hexec, setReg_reg_same s rd (A + 8), rfl, fun _ hq => setReg_reg_other s (A + 8) hq,
    fun _ => rfl, rfl⟩

/-- Settles O20: the statement's bit fields are the decoder's, its pc update is `setPc`. -/
theorem stepOfOpcode63BranchesFromAdvancedPc : Obligations.StepOfOpcode63BranchesFromAdvancedPc :=
  fun _ _ hrun hf h63 => step_of_opcode63 hrun hf h63

/-- Settles O21, by the JAL row of the step: the target replaces the advanced pc, the link is `A + 8`. -/
theorem stepOfOpcode6FLinksAndJumps : Obligations.StepOfOpcode6FLinksAndJumps := by
  intro s w hrun hf h6F
  rw [step_of_opcode6F hrun hf h6F, jalLink, State.advance, setPc_setReg_setPc]
  rfl

end Sys2Proof.Machine

/-! ## The store: SD with both writes in range -/

namespace Sys2Proof.Machine

/-- Settles O7: each stored word reads back, the first because the second store lies above it. -/
theorem sdCompletesWithBothWordsStored : Obligations.SdCompletesWithBothWordsStored := by
  rintro rs1 rs2 next imm s _ hwf hnext rfl h8
  have h1 : (s.sdAddress rs1 imm).toNat + 4 ≤ Config.memSize := by rw [memSize_eq]; omega
  have hsecond := sdSecond_toNat h1
  have h2 : (s.sdAddress rs1 imm + 4).toNat + 4 ≤ Config.memSize := by
    rw [hsecond, memSize_eq]; omega
  have hwf1 := wf_storeBytes hwf (s.reg next) h1
  have hexec := execSd_of_inRange (sdLow_of_pair hnext) h8
  obtain ⟨-, hout⟩ := execSd_mem hwf hexec
  refine ⟨_, hexec, fun k hk => ?_, fun k hk => ?_, hout, fun _ => rfl, rfl, rfl⟩
  · exact (byte_storeBytes_other hwf1 _ h2 (by omega)).trans (byte_storeBytes_same hwf _ h1 hk)
  · rw [← hsecond]
    exact byte_storeBytes_same hwf1 _ h2 hk

end Sys2Proof.Machine

/-! ## The system instruction: ECALL -/

namespace Sys2Proof.Machine

/-- Halting leaves every register, every byte and the pc (R85). -/
theorem halt_frame (s : State) (v : Word) :
    SameRegs s (s.halt v) ∧ SameBytes s (s.halt v) ∧ (s.halt v).pc = s.pc :=
  ⟨halt_reg s v, fun _ => rfl, halt_pc s v⟩

/-- A halted machine takes no step (R20, R64). -/
theorem step_halt (s : State) (v : Word) : step (s.halt v) = .fault (.notRunning (.halted v)) := by
  have hstopped : (s.halt v).run ≠ .running := by rw [halt_run]; exact nofun
  rw [step_of_not_running hstopped, halt_run]

section
variable {s : State} {w : Word}

/-- An ECALL word halts with the result register, after the advance (R85). -/
theorem step_of_opcode73 (hrun : s.run = .running) (hf : s.fetch = .ok w)
    (h73 : opField w = 0x73#7) :
    step s = .next (s.advance.halt (s.reg Config.resultReg)) := by
  rw [step_of_decode hrun hf (decode_of_opcode73 h73), exec_ecall, advance_reg]

end

/-- Settles O6: ECALL does nothing but halt, and register 10 is the result register. -/
theorem ecallCompletesByHalting : Obligations.EcallCompletesByHalting :=
  fun s => ⟨_, exec_ecall s, halt_run s (s.reg 10), halt_frame s (s.reg 10)⟩

/-- Settles O22, by the ECALL row of the step, which names no bit of `w[31:7]`; the state it leaves is
halted, so the next step stops. -/
theorem stepOfOpcode73Halts : Obligations.StepOfOpcode73Halts := by
  intro s w hrun hf h73
  refine ⟨step_of_opcode73 hrun hf h73, fun t hnext => ?_⟩
  have hstop := step_halt s.advance (s.reg 10)
  cases hnext.symm.trans hstop

end Sys2Proof.Machine

/-! ## The loader -/

namespace Sys2Proof.Machine

/-! ### The checks, by the numbers of R93 and R101 -/

theorem isExecSegment_iff {g : Segment} : isExecSegment g = true ↔ g.type = 1 ∧ g.flags = 5 :=
  decide_eq_true_iff

theorem isTextSection_iff {c : Section} : isTextSection c = true ↔ c.type = 1 ∧ c.flags = 6 :=
  decide_eq_true_iff

theorem find_execSegment_eq_none {segments : List Segment}
    (h : ∀ g ∈ segments, ¬ (g.type = 1 ∧ g.flags = 5)) : segments.find? isExecSegment = none :=
  List.find?_eq_none.mpr fun g hg => isExecSegment_iff.not.mpr (h g hg)

theorem find_execSegment_eq_some {segments : List Segment}
    (h : ∃ g ∈ segments, g.type = 1 ∧ g.flags = 5) :
    ∃ seg, segments.find? isExecSegment = some seg := by
  obtain ⟨g, hg, hexec⟩ := h
  exact Option.isSome_iff_exists.mp (List.find?_isSome.mpr ⟨g, hg, isExecSegment_iff.mpr hexec⟩)

theorem find_textSection_eq_none {sections : List Section}
    (h : ∀ c ∈ sections, ¬ (c.type = 1 ∧ c.flags = 6)) : sections.find? isTextSection = none :=
  List.find?_eq_none.mpr fun c hc => isTextSection_iff.not.mpr (h c hc)

/-- The first matching section is the one found (R104). -/
theorem find_textSection_eq_some {before after : List Section} {sec : Section}
    (hbefore : ∀ c ∈ before, ¬ (c.type = 1 ∧ c.flags = 6)) (htype : sec.type = 1)
    (hflags : sec.flags = 6) : (before ++ sec :: after).find? isTextSection = some sec := by
  rw [List.find?_append, find_textSection_eq_none hbefore, Option.none_or,
    List.find?_cons_of_pos (isTextSection_iff.mpr ⟨htype, hflags⟩)]

section
variable {parse : List Byte → Option ElfObject} {binary : List Byte} {elf : ElfObject}
  {seg : Segment} {sec : Section}

theorem selectSection_of_parse_none (hp : parse binary = none) :
    selectSection parse binary = .error .malformedElf := by
  simp only [selectSection, hp]

theorem selectSection_of_no_segment (hp : parse binary = some elf)
    (hseg : elf.segments.find? isExecSegment = none) :
    selectSection parse binary = .error .noExecutableSegment := by
  simp only [selectSection, hp, hseg]

theorem selectSection_of_no_section (hp : parse binary = some elf)
    (hseg : elf.segments.find? isExecSegment = some seg)
    (hsec : elf.sections.find? isTextSection = none) :
    selectSection parse binary = .error .noTextSection := by
  simp only [selectSection, hp, hseg, hsec]

/-- The two bounds checks of a found section, memory before input (R105). -/
theorem selectSection_of_section (hp : parse binary = some elf)
    (hseg : elf.segments.find? isExecSegment = some seg)
    (hsec : elf.sections.find? isTextSection = some sec) :
    selectSection parse binary =
      if 0x100000 < sec.virtualAddress + sec.size then .error .imageOverflow
      else if binary.length < sec.fileOffset + sec.size then .error .malformedElf
      else .ok sec := by
  simp only [selectSection, hp, hseg, hsec, memSize_eq, gt_iff_lt]

end

/-! ### What a load does -/

section
variable {parse : List Byte → Option ElfObject} {binary : List Byte} {s t : State}

theorem loadWith_of_error {kind : LoadError} (hrun : s.run = .unloaded)
    (hsel : selectSection parse binary = .error kind) :
    loadWith parse binary s = .next { s with run := .loadFailed kind } := by
  simp only [loadWith, hrun, hsel]

theorem loadWith_of_ok {sec : Section} (hrun : s.run = .unloaded)
    (hsel : selectSection parse binary = .ok sec) :
    loadWith parse binary s = .next (loadSection binary sec s) := by
  simp only [loadWith, hrun, hsel]

/-- Byte `k` of a section that lies within the input is the input's byte at its offset (R92). -/
theorem getElem?_input_eq_sectionBytes {sec : Section} {k : Nat}
    (hinput : sec.fileOffset + sec.size ≤ binary.length) (hk : k < sec.size) :
    binary[sec.fileOffset + k]? = some ((sectionBytes binary sec).getD k 0) := by
  have hlen : k < (sectionBytes binary sec).length := (length_sectionBytes hinput).symm ▸ hk
  rw [List.getD_eq_getElem _ _ hlen, ← List.getElem?_eq_getElem hlen, sectionBytes,
    List.getElem?_take_of_lt hk, List.getElem?_drop]

/-- What every byte reads as once a section that passed the checks is loaded (R92, R107). -/
theorem byte_loadSection {sec : Section} (hwf : s.mem.wf = true)
    (hfits : sec.virtualAddress + sec.size ≤ 0x100000)
    (hinput : sec.fileOffset + sec.size ≤ binary.length) (q : Nat) :
    (loadSection binary sec s).mem.byte q =
      if sec.virtualAddress ≤ q ∧ q < sec.virtualAddress + sec.size then
        (sectionBytes binary sec).getD (q - sec.virtualAddress) 0
      else s.mem.byte q := by
  have hlen := length_sectionBytes hinput
  rw [loadSection, byte_copyBytes hwf (by rwa [hlen]), hlen]

end

/-! ### The machine before a load has succeeded -/

/-- A machine with nothing loaded is the reset machine, but for the run state of a failed load. -/
def State.FreshUnlessLoaded (s : State) : Prop :=
  (s.run = .unloaded → s = State.reset) ∧
  ∀ kind, s.run = .loadFailed kind → s = { State.reset with run := .loadFailed kind }

section
variable {s t : State}

theorem reset_freshUnlessLoaded : State.reset.FreshUnlessLoaded := ⟨fun _ => rfl, nofun⟩

theorem loadWith_freshUnlessLoaded {parse : List Byte → Option ElfObject} {binary : List Byte}
    (hfresh : s.FreshUnlessLoaded) (h : loadWith parse binary s = .next t) :
    t.FreshUnlessLoaded := by
  obtain ⟨-, h'⟩ | ⟨hrun, kind, -, h'⟩ | ⟨-, sec, -, h'⟩ := loadWith_cases parse binary s <;>
    cases h.symm.trans h'
  · obtain rfl : s = State.reset := hfresh.1 hrun
    refine ⟨nofun, fun kind' hkind => ?_⟩
    cases hkind
    rfl
  · exact ⟨nofun, nofun⟩

/-- No step leads back before the load (R20). -/
theorem step_freshUnlessLoaded (h : step s = .next t) : t.FreshUnlessLoaded := by
  obtain hgo | ⟨kind, hfault⟩ | ⟨v, hhalt⟩ := run_after_step h
  · simp [State.FreshUnlessLoaded, hgo]
  · simp [State.FreshUnlessLoaded, hfault]
  · simp [State.FreshUnlessLoaded, hhalt]

end

/-! ### The parser -/

/-- The model's field reader delivers the integer at the field's offset, zeros beyond the input. -/
theorem leNat_take_drop (b : List Byte) (o n : Nat) :
    leNat ((b.drop o).take n) = inputNat b o n := by
  induction n generalizing o with
  | zero => rfl
  | succ n ih =>
    rw [inputNat, ← ih]
    by_cases ho : o < b.length
    · rw [List.drop_eq_getElem_cons ho, List.take_succ_cons, leNat, List.getD_eq_getElem _ _ ho]
    · have hlen : b.length ≤ o := Nat.le_of_not_lt ho
      rw [List.drop_eq_nil_of_le hlen, List.drop_eq_nil_of_le (by omega),
        List.getD_eq_default _ _ hlen, List.take_nil, List.take_nil]
      rfl

theorem readField_eq_inputNat (b : List Byte) (base offset size : Nat) :
    readField b base ⟨offset, size⟩ = inputNat b (base + offset) size :=
  leNat_take_drop b (base + offset) size

/-- A table of `num` entries at `off`, each `entsize` bytes wide, is wide enough and lies within the
`length` bytes of the input; an empty table always does (R102 items 5, 6). -/
def TableFits (length minimum off entsize num : Nat) : Prop :=
  num = 0 ∨ minimum ≤ entsize ∧ off + num * entsize ≤ length

/-- It is what the parser's own check, which asks for a misfit, lets pass. -/
theorem tableFits_iff {length minimum off entsize num : Nat} :
    TableFits length minimum off entsize num ↔
      ¬ (num > 0 ∧ (entsize < minimum ∨ off + num * entsize > length)) := by
  rw [TableFits]
  omega

/-- The header and both tables of an input, read by a layout, lie within it (R102 items 4 to 6). -/
def TablesFit (b : List Byte) (l : ElfLayout) : Prop :=
  l.ehSize ≤ b.length ∧
  TableFits b.length l.phSize (readField b 0 l.phoff) (readField b 0 l.phentsize)
    (readField b 0 l.phnum) ∧
  TableFits b.length l.shSize (readField b 0 l.shoff) (readField b 0 l.shentsize)
    (readField b 0 l.shnum)

/-- The entries of both tables in order, by a layout (R98). -/
def tablesOf (b : List Byte) (l : ElfLayout) : ElfObject where
  segments := (List.range (readField b 0 l.phnum)).map fun i =>
    readSegment b l (readField b 0 l.phoff + i * readField b 0 l.phentsize)
  sections := (List.range (readField b 0 l.shnum)).map fun j =>
    readSection b l (readField b 0 l.shoff + j * readField b 0 l.shentsize)

section
variable {b : List Byte} {l : ElfLayout} {elf : ElfObject}

theorem readTables_of_fit (h : TablesFit b l) : readTables b l = some (tablesOf b l) := by
  obtain ⟨heh, hph, hsh⟩ := h
  simp only [readTables]
  rw [if_neg (Nat.not_lt.mpr heh), if_neg (tableFits_iff.mp hph), if_neg (tableFits_iff.mp hsh),
    tablesOf]

theorem tablesFit_of_readTables (h : readTables b l = some elf) : TablesFit b l := by
  simp only [readTables] at h
  split at h
  · cases h
  · next heh =>
    split at h
    · cases h
    · next hph =>
      split at h
      · cases h
      · next hsh => exact ⟨Nat.not_lt.mp heh, tableFits_iff.mpr hph, tableFits_iff.mpr hsh⟩

theorem readTables_eq_some_iff :
    readTables b l = some elf ↔ TablesFit b l ∧ elf = tablesOf b l := by
  constructor
  · intro h
    have hfit := tablesFit_of_readTables h
    exact ⟨hfit, Option.some.inj (h.symm.trans (readTables_of_fit hfit))⟩
  · rintro ⟨hfit, rfl⟩
    exact readTables_of_fit hfit

theorem elfLayout_eq_some_iff {cls : Byte} :
    elfLayout cls = some l ↔ cls = 1 ∧ l = elfLayout32 ∨ cls = 2 ∧ l = elfLayout64 := by
  constructor
  · intro h
    unfold elfLayout at h
    split at h
    · next h1 => exact .inl ⟨h1, (Option.some.inj h).symm⟩
    · split at h
      · next h2 => exact .inr ⟨h2, (Option.some.inj h).symm⟩
      · cases h
  · rintro (⟨rfl, rfl⟩ | ⟨rfl, rfl⟩) <;> rfl

/-- An accepted input is identified, of a known class, little-endian and holds its tables; the object is
what they list (R96, R98, R102). -/
theorem elfParse_eq_some_iff :
    elfParse b = some elf ↔
      16 ≤ b.length ∧ b.take 4 = elfMagic ∧ b.getD 5 0 = 1 ∧
        ∃ l, elfLayout (b.getD 4 0) = some l ∧ TablesFit b l ∧ elf = tablesOf b l := by
  simp only [← readTables_eq_some_iff]
  constructor
  · intro h
    unfold elfParse at h
    split at h
    · cases h
    · next hident =>
      obtain ⟨hlen, hmagic⟩ := not_or.mp hident
      split at h
      · cases h
      · next l hl =>
        split at h
        · cases h
        · next hdata =>
          exact ⟨Nat.not_lt.mp hlen, not_not.mp hmagic, not_not.mp hdata, l, hl, h⟩
  · rintro ⟨hlen, hmagic, hdata, l, hl, h⟩
    have hident : ¬ (b.length < 16 ∨ b.take 4 ≠ elfMagic) :=
      not_or.mpr ⟨Nat.not_lt.mpr hlen, not_not.mpr hmagic⟩
    simp only [elfParse, if_neg hident, hl, if_neg (not_not.mpr hdata), h]

/-- Which inputs are accepted, class by class. -/
theorem elfParse_accepts_iff :
    (∃ elf, elfParse b = some elf) ↔
      16 ≤ b.length ∧ b.take 4 = elfMagic ∧ b.getD 5 0 = 1 ∧
        (b.getD 4 0 = 1 ∧ TablesFit b elfLayout32 ∨ b.getD 4 0 = 2 ∧ TablesFit b elfLayout64) := by
  simp only [elfParse_eq_some_iff, elfLayout_eq_some_iff]
  constructor
  · rintro ⟨elf, hlen, hmagic, hdata, l, ⟨hcls, rfl⟩ | ⟨hcls, rfl⟩, hfit, -⟩
    · exact ⟨hlen, hmagic, hdata, .inl ⟨hcls, hfit⟩⟩
    · exact ⟨hlen, hmagic, hdata, .inr ⟨hcls, hfit⟩⟩
  · rintro ⟨hlen, hmagic, hdata, ⟨hcls, hfit⟩ | ⟨hcls, hfit⟩⟩
    · exact ⟨_, hlen, hmagic, hdata, _, .inl ⟨hcls, rfl⟩, hfit, rfl⟩
    · exact ⟨_, hlen, hmagic, hdata, _, .inr ⟨hcls, rfl⟩, hfit, rfl⟩

/-- The two lists of an accepted input are its table entries in order, by its class's layout (R98). -/
theorem tables_of_elfParse (h : elfParse b = some elf) (hl : elfLayout (b.getD 4 0) = some l) :
    elf.segments.length = readField b 0 l.phnum ∧ elf.sections.length = readField b 0 l.shnum ∧
    (∀ i, i < readField b 0 l.phnum →
      ∀ o, o = readField b 0 l.phoff + i * readField b 0 l.phentsize →
        elf.segments[i]? = some (readSegment b l o)) ∧
    (∀ j, j < readField b 0 l.shnum →
      ∀ o, o = readField b 0 l.shoff + j * readField b 0 l.shentsize →
        elf.sections[j]? = some (readSection b l o)) := by
  obtain ⟨-, -, -, l', hl', -, rfl⟩ := elfParse_eq_some_iff.mp h
  obtain rfl : l = l' := Option.some.inj (hl.symm.trans hl')
  refine ⟨?_, ?_, ?_, ?_⟩
  · rw [tablesOf, List.length_map, List.length_range]
  · rw [tablesOf, List.length_map, List.length_range]
  · rintro i hi o rfl
    rw [tablesOf, List.getElem?_map, List.getElem?_range hi, Option.map_some]
  · rintro j hj o rfl
    rw [tablesOf, List.getElem?_map, List.getElem?_range hj, Option.map_some]

end

/-! ### The offsets of each class (R97, R99, R100) -/

section
variable (b : List Byte) (o : Nat)

theorem tablesFit_layout32_iff : TablesFit b elfLayout32 ↔ 52 ≤ b.length ∧
    TableFits b.length 32 (inputNat b 28 4) (inputNat b 42 2) (inputNat b 44 2) ∧
    TableFits b.length 40 (inputNat b 32 4) (inputNat b 46 2) (inputNat b 48 2) := by
  simp only [TablesFit, elfLayout32, readField_eq_inputNat, Nat.zero_add]

theorem tablesFit_layout64_iff : TablesFit b elfLayout64 ↔ 64 ≤ b.length ∧
    TableFits b.length 56 (inputNat b 32 8) (inputNat b 54 2) (inputNat b 56 2) ∧
    TableFits b.length 64 (inputNat b 40 8) (inputNat b 58 2) (inputNat b 60 2) := by
  simp only [TablesFit, elfLayout64, readField_eq_inputNat, Nat.zero_add]

theorem readSegment_layout32 :
    readSegment b elfLayout32 o = ⟨inputNat b o 4, inputNat b (o + 24) 4⟩ := by
  simp only [readSegment, elfLayout32, readField_eq_inputNat, Nat.add_zero]

theorem readSegment_layout64 :
    readSegment b elfLayout64 o = ⟨inputNat b o 4, inputNat b (o + 4) 4⟩ := by
  simp only [readSegment, elfLayout64, readField_eq_inputNat, Nat.add_zero]

theorem readSection_layout32 : readSection b elfLayout32 o =
    ⟨inputNat b (o + 4) 4, inputNat b (o + 8) 4, inputNat b (o + 12) 4, inputNat b (o + 16) 4,
      inputNat b (o + 20) 4⟩ := by
  simp only [readSection, elfLayout32, readField_eq_inputNat]

theorem readSection_layout64 : readSection b elfLayout64 o =
    ⟨inputNat b (o + 4) 4, inputNat b (o + 8) 8, inputNat b (o + 16) 8, inputNat b (o + 24) 8,
      inputNat b (o + 32) 8⟩ := by
  simp only [readSection, elfLayout64, readField_eq_inputNat]

end

/-! ### The statements -/

/-- Settles O33, by induction on how the state is reached, one lemma per operation. -/
theorem reachableUnloadedIsTheResetState : Obligations.ReachableUnloadedIsTheResetState := by
  intro s hs
  change s.FreshUnlessLoaded
  induction hs with
  | reset => exact reset_freshUnlessLoaded
  | react e _ h ih =>
    cases e with
    | reset =>
      cases h
      exact reset_freshUnlessLoaded
    | load binary => exact loadWith_freshUnlessLoaded ih h
    | step => exact step_freshUnlessLoaded h

/-- Settles O46: the outcome of `selectSection` at each check. -/
theorem loadErrorsFollowTheOrderOfChecks : Obligations.LoadErrorsFollowTheOrderOfChecks := by
  intro parse binary s hrun
  refine ⟨fun hp => loadWith_of_error hrun (selectSection_of_parse_none hp), fun elf hp =>
    ⟨fun hno => loadWith_of_error hrun
      (selectSection_of_no_segment hp (find_execSegment_eq_none hno)), fun hexec => ?_⟩⟩
  obtain ⟨seg, hseg⟩ := find_execSegment_eq_some hexec
  refine ⟨fun hno => loadWith_of_error hrun
    (selectSection_of_no_section hp hseg (find_textSection_eq_none hno)), ?_⟩
  intro before sec after hsections hbefore htype hflags
  have hsel := selectSection_of_section hp hseg
    (hsections ▸ find_textSection_eq_some hbefore htype hflags)
  refine ⟨fun hover => ?_, fun hfits hshort => ?_⟩
  · exact loadWith_of_error hrun (hsel.trans (if_pos hover))
  · rw [if_neg (Nat.not_lt.mpr hfits), if_pos hshort] at hsel
    exact loadWith_of_error hrun hsel

/-- Settles O47: every check is passed, and `byte_loadSection` says what memory holds then. -/
theorem loadCopiesTheSectionAndSetsThePc : Obligations.LoadCopiesTheSectionAndSetsThePc := by
  intro parse binary elf before after sec hp hexec hsections hbefore htype hflags hfits hinput
  obtain ⟨seg, hseg⟩ := find_execSegment_eq_some hexec
  have hsel := selectSection_of_section hp hseg
    (hsections ▸ find_textSection_eq_some hbefore htype hflags)
  rw [if_neg (Nat.not_lt.mpr hfits), if_neg (Nat.not_lt.mpr hinput)] at hsel
  have hbyte := byte_loadSection (s := State.reset) rfl hfits hinput
  refine ⟨_, loadWith_of_ok reset_run hsel, fun k hk => ?_, fun a ha => ?_, reset_reg, ?_, rfl⟩
  · rw [hbyte, if_pos (by omega), Nat.add_sub_cancel_left]
    exact getElem?_input_eq_sectionBytes hinput hk
  · rw [hbyte, if_neg (by omega), reset_mem, byte_nil]
  · rw [loadSection_pc, BitVec.toNat_ofNat, Nat.mod_eq_of_lt (by omega)]

/-- Settles O49: identification and tables are checked as listed, with the offsets of each class. -/
theorem elfParseRefusesExactlyTheListedInputs :
    Obligations.ElfParseRefusesExactlyTheListedInputs := by
  intro b
  rw [elfParse_accepts_iff, tablesFit_layout32_iff, tablesFit_layout64_iff]
  rfl

/-- Settles O50: the tables as the class's layout reads them, then each field at its offset. -/
theorem elfParseReadsTheTablesInOrder : Obligations.ElfParseReadsTheTablesInOrder := by
  intro b elf h
  refine ⟨fun hcls => ?_, fun hcls => ?_⟩
  · have htables := tables_of_elfParse h (elfLayout_eq_some_iff.mpr (.inl ⟨hcls, rfl⟩))
    simp only [readSegment_layout32, readSection_layout32] at htables
    simpa only [elfLayout32, readField_eq_inputNat, Nat.zero_add] using htables
  · have htables := tables_of_elfParse h (elfLayout_eq_some_iff.mpr (.inr ⟨hcls, rfl⟩))
    simp only [readSegment_layout64, readSection_layout64] at htables
    simpa only [elfLayout64, readField_eq_inputNat, Nat.zero_add] using htables

/-- Settles O48, by the three outcomes of a load. -/
theorem loadSucceedsOrLeavesNoTrace : Obligations.LoadSucceedsOrLeavesNoTrace := by
  intro binary s
  obtain ⟨hrun, h⟩ | ⟨hrun, kind, -, h⟩ | ⟨hrun, sec, -, h⟩ := loadWith_cases elfParse binary s
  · exact ⟨fun _ => h, fun hrun' => absurd hrun' hrun⟩
  · exact ⟨absurd hrun, fun _ => ⟨_, h, fun _ => rfl, .inr ⟨kind, rfl⟩⟩⟩
  · exact ⟨absurd hrun, fun _ => ⟨_, h, fun _ => rfl, .inl rfl⟩⟩

end Sys2Proof.Machine

/-! ## The fatal errors: unknown words, and SD's first write out of range -/

namespace Sys2Proof.Machine

section
variable {s t : State} {w : Word}

/-- An unknown word faults after the advance, and nothing else happens (R54, R62, R116). -/
theorem step_of_isUnknownWord (hrun : s.run = .running) (hf : s.fetch = .ok w)
    (hu : IsUnknownWord w) : step s = .next (s.advance.raise .unknownInstruction) := by
  obtain ⟨t, hstep⟩ := step_next hrun
  obtain ⟨why, hd⟩ := decode_of_isUnknownWord hu
  have hexec := execDecoded_of_step hstep hf
  rw [hd] at hexec
  exact hstep.trans hexec.symm

/-- No word but an unknown one ends a step in this fault: SD faults for its register index or its
address, ECALL halts, every other instruction leaves the machine running (R74, R85, R121). -/
theorem isUnknownWord_of_step (h : step s = .next t) (hf : s.fetch = .ok w)
    (hfault : t.run = .fault .unknownInstruction) : IsUnknownWord w := by
  by_contra hknown
  by_cases h73 : opField w = 0x73#7
  · cases hfault.symm.trans (run_of_step_opcode73 h hf h73)
  by_cases h23 : opField w = 0x23#7
  · have hsd := hfault.symm.trans (run_of_step_opcode23 h hf h23)
    split_ifs at hsd <;> cases hsd
  · have hsame := (wordStep_of_step h hf).run_eq hknown h73 h23
    cases hfault.symm.trans (hsame.trans (run_of_step h))

end

/-- Settles O16: `pc - 4` is the address the step fetched from, and memory is as it was. -/
theorem unknownWordFaultsAfterTheAdvance : Obligations.UnknownWordFaultsAfterTheAdvance := by
  intro s w hrun hf
  refine ⟨fun hu => ⟨step_of_isUnknownWord hrun hf hu, ?_⟩, fun _ h => isUnknownWord_of_step h hf⟩
  rw [add_sub_cancel_right]
  exact hf

/-- Settles O9: the register pair exists, so the first write's bounds check is the first to fail. -/
theorem sdFirstWriteOutOfRangeWritesNothing : Obligations.SdFirstWriteOutOfRangeWritesNothing := by
  intro rs1 rs2 imm s h31 haddr
  have hpair : rs2.val + 1 < 32 := by omega
  have hrange : Config.memSize < (s.sdAddress rs1 imm).toNat + 4 := by rw [memSize_eq]; omega
  exact execSd_of_firstOutOfRange (regAt_of_lt s hpair) hrange

end Sys2Proof.Machine

/-! ## The test interface: the word placed where the next step fetches -/

namespace Sys2Proof

/-- A table word goes through the decoder unchanged: its bytes assemble to it again (R30, R40). -/
theorem decodeTableWord_eq (nbits w : Nat) :
    decodeTableWord nbits w = (decode (tableWord nbits w)).toOption := by
  have hbytes : decodeBytes (bytesOfWord (tableWord nbits w)) =
      (decode (tableWord nbits w)).map fun i => (i, []) :=
    congrArg (fun v => (decode v).map fun i => (i, [])) (wordOfBytes_extract (tableWord nbits w))
  rw [decodeTableWord, hbytes]
  cases decode (tableWord nbits w) <;> rfl

theorem decode_of_decodeTableWord {nbits w : Nat} {i : Instr}
    (h : decodeTableWord nbits w = some i) : decode (tableWord nbits w) = .ok i := by
  rw [decodeTableWord_eq] at h
  cases hd : decode (tableWord nbits w) with
  | error why => rw [hd] at h; cases h
  | ok j => rw [hd] at h; cases h; rfl

end Sys2Proof

namespace Sys2Proof.Machine

/-- `s` running at `a` with the word's 4 bytes there: `placeFetchWord` once its address is chosen. -/
def State.runningWordAt (s : State) (w a : Word) : State :=
  { s with mem := s.mem.storeBytes a.toNat w 4, pc := a, run := .running }

section
variable {s : State} {w a : Word}

theorem placeFetchWord_of_inRange (h : s.pc.toNat + 4 ≤ Config.memSize) :
    placeFetchWord s w = s.runningWordAt w s.pc := by
  simp only [placeFetchWord, if_pos ((inRange_iff s.pc 4).mpr h), State.runningWordAt]

theorem placeFetchWord_of_outOfRange (h : Config.memSize < s.pc.toNat + 4) :
    placeFetchWord s w = s.runningWordAt w 0 := by
  have hrange : ¬ inRange s.pc 4 = true := fun hr => Nat.not_le.mpr h ((inRange_iff _ _).mp hr)
  simp only [placeFetchWord, if_neg hrange, State.runningWordAt]

/-- The fetch reads the word just placed, so the step executes what the decoder reads from it, in a state
that differs from `s` in the run state, the pc and the word's 4 bytes only (R60, R62). -/
theorem step_runningWordAt {i : Instr} (hwf : s.mem.wf = true)
    (ha : a.toNat + 4 ≤ Config.memSize) (hd : decode w = .ok i) :
    ∃ u, step (s.runningWordAt w a) = exec i u ∧ u.x = s.x ∧ u.run = .running ∧
      u.mem.wf = true ∧ u.pc = a + 4 ∧ SameBytesOutside s u a.toNat 4 := by
  have hfetch : (s.runningWordAt w a).fetch = .ok w :=
    fetch_storeBytes_same (s := { s with run := .running }) hwf w ha
  exact ⟨(s.runningWordAt w a).advance, step_of_decode rfl hfetch hd, rfl, rfl,
    wf_storeBytes hwf w ha, rfl, fun _ hq => byte_storeBytes_other hwf w ha hq⟩

end

/-- Settles O36, by the two addresses at which the word can be placed: the pc, or 0 where a fetch at the pc
would reach beyond memory. -/
theorem placedWordIsExecutedByTheNextStep : Obligations.PlacedWordIsExecutedByTheNextStep := by
  intro s nbits w i hwf hdecode
  have hd := decode_of_decodeTableWord hdecode
  by_cases hpc : s.pc.toNat ≤ 0xFFFFC
  · have hrange : s.pc.toNat + 4 ≤ Config.memSize := by rw [memSize_eq]; omega
    rw [if_pos hpc, if_pos hpc, State.withFetchWord, placeFetchWord_of_inRange hrange]
    exact step_runningWordAt hwf hrange hd
  · have hrange : Config.memSize < s.pc.toNat + 4 := by rw [memSize_eq]; omega
    rw [if_neg hpc, if_neg hpc, State.withFetchWord, placeFetchWord_of_outOfRange hrange]
    exact step_runningWordAt (a := 0) hwf (by decide) hd

end Sys2Proof.Machine
